-- ==== Sys2Proof/Word.lean ====
section
/-! DEFINITION. The words the model is written in: Bitstrings, the words of the bit-level port, the error kinds
and the fixed widths of 00_scope.md rule R5. -/

namespace Sys2Proof

/-- A Bitstring (00_scope.md rules R9, R10): a finite sequence of bits, index 0 the leftmost.
The length is carried by the value, so an operand of a wrong length can be written down and rejected. -/
abbrev Bitstring := List Bool

/-- A command word of the bit-level port (30_encoding.md rule R55). -/
abbrev CommandWord := BitVec 20

/-- A status word or a trace entry word (30_encoding.md rules R62, R63). -/
abbrev ResponseWord := BitVec 19

/-- The closed list of error kinds (60_exceptions.md rule R185). An error is a response of a command, never a stop
of the machine. -/
inductive ErrorKind where
  /-- A Bitstring is not of the exact length its role requires (rule R187). -/
  | lengthMismatch
  /-- A circular shift by the full length or more (rule R188). -/
  | invalidShift
  /-- A split point beyond the end (rule R188). -/
  | invalidSplit
  /-- A character code that does not fit in 8 bits: the host's Text Codec only (rule R189). -/
  | unsupportedCharacter
deriving DecidableEq, Repr

/-! The fixed widths and counts of 00_scope.md rule R5. -/

@[simp] abbrev blockW : Nat := 8
@[simp] abbrev keyW : Nat := 10
@[simp] abbrev roundKeyW : Nat := 8
@[simp] abbrev halfW : Nat := 4
@[simp] abbrev keyHalfW : Nat := 5
@[simp] abbrev sboxOutW : Nat := 2
@[simp] abbrev shift1 : Nat := 1
@[simp] abbrev shift2 : Nat := 2
@[simp] abbrev keyspace : Nat := 1024

end Sys2Proof
end

