-- ==== Sys2Proof/Machine/Operands.lean ====
section
/-! DEFINITION. Numeric value of a Bitstring, and the operands of a command word (00_scope.md rules R12, R13;
30_encoding.md rules R55, R57). -/

namespace Sys2Proof

/-- `val(b)`: the leftmost bit is the most significant (00_scope.md rule R12). -/
def val : Bitstring → Nat
  | [] => 0
  | x :: rest => x.toNat * 2 ^ rest.length + val rest

/-- `bits_n(v)`: the `n` low bits of `v`, most significant first (00_scope.md rule R12, there for `v < 2^n`). -/
def bits : Nat → Nat → Bitstring
  | 0, _ => []
  | n + 1, v => v.testBit n :: bits n v

/-- Field `op`, word bits 19:18 (30_encoding.md rule R55). -/
def opField (w : CommandWord) : BitVec 2 := w.extractLsb' 18 2

/-- Field `key`, word bits 17:8 (30_encoding.md rule R55). -/
def keyField (w : CommandWord) : BitVec 10 := w.extractLsb' 8 10

/-- Field `data`, word bits 7:0 (30_encoding.md rule R55). -/
def dataField (w : CommandWord) : BitVec 8 := w.extractLsb' 0 8

/-- `key_operand = bits_10(w[17:8])` (30_encoding.md rule R57). -/
def keyOperand (w : CommandWord) : Bitstring := bits keyW (keyField w).toNat

/-- `block_operand = bits_8(w[7:0])` (30_encoding.md rule R57). -/
def blockOperand (w : CommandWord) : Bitstring := bits blockW (dataField w).toNat

/-- A command word from its three fields (30_encoding.md rule R55). -/
def packCommand (op : BitVec 2) (key : BitVec 10) (data : BitVec 8) : CommandWord := op ++ key ++ data

end Sys2Proof
end

