-- ==== Sys2Proof/Syntax.lean ====
section
/-! DEFINITION. The commands of CORE: one constructor per row of spec/opcode_table.json. -/

namespace Sys2Proof

/-- A command (43_commands.md rule R140). Operands are Bitstrings of ANY length: the length check is part of the
command (rule R142). The operand order is the source's, block first, key second (30_encoding.md rule R64). -/
inductive Instr where
  /-- LOG: read the trace (rule R152). -/
  | log
  /-- KSCH: derive the round keys (rule R143). -/
  | ksch (key : Bitstring)
  /-- ENC: encrypt one block (rule R145). -/
  | enc (block key : Bitstring)
  /-- DEC: decrypt one block (rule R147). -/
  | dec (block key : Bitstring)
deriving DecidableEq, Repr

end Sys2Proof
end

