-- ==== Sys2Proof/WellFormed.lean ====
section
/-! DEFINITION. Well-formed operands (00_scope.md glossary: "a block of length exactly 8, a key of length exactly 10")
and the commands that have a command word (30_encoding.md rule R60). -/

namespace Sys2Proof

/-- A well-formed block operand: exactly 8 bits. -/
@[simp] abbrev blockOk (b : Bitstring) : Prop := b.length = blockW

/-- A well-formed master key operand: exactly 10 bits. -/
@[simp] abbrev keyOk (k : Bitstring) : Prop := k.length = keyW

/-- Every operand has the exact length its role requires (43_commands.md rule R142). LOG has no operand. -/
def Instr.wf : Instr → Bool
  | .log => true
  | .ksch k => decide (keyOk k)
  | .enc b k => decide (blockOk b) && decide (keyOk k)
  | .dec b k => decide (blockOk b) && decide (keyOk k)

end Sys2Proof
end

