-- ==== Sys2Proof/Decode.lean ====
section
/-! DEFINITION. Decoding and encoding of command words (30_encoding.md rules R55 to R61). Decoding is total and refuses
nothing (rule R59); encoding refuses a malformed operand (rule R60). -/

namespace Sys2Proof

/-- The command a word stands for (30_encoding.md rules R56 to R58). A field a command does not use is not looked at. -/
def decode (w : CommandWord) : Instr :=
  match (opField w).toNat with
  | 0 => .log
  | 1 => .ksch (keyOperand w)
  | 2 => .enc (blockOperand w) (keyOperand w)
  | _ => .dec (blockOperand w) (keyOperand w)

/-- The opcode of a command (30_encoding.md rule R56). -/
def opcode : Instr → BitVec 2
  | .log => 0
  | .ksch _ => 1
  | .enc _ _ => 2
  | .dec _ _ => 3

/-- The canonical word of a well-formed command: zeros in every ignored field (30_encoding.md rule R58); a malformed
command has no word (rule R60). -/
def encode (i : Instr) : Option CommandWord :=
  if i.wf then
    some (match i with
      | .log => packCommand (opcode i) 0 0
      | .ksch k => packCommand (opcode i) (BitVec.ofNat 10 (val k)) 0
      | .enc b k => packCommand (opcode i) (BitVec.ofNat 10 (val k)) (BitVec.ofNat 8 (val b))
      | .dec b k => packCommand (opcode i) (BitVec.ofNat 10 (val k)) (BitVec.ofNat 8 (val b)))
  else none

/-- A number as a command word: a word has exactly 20 bits (30_encoding.md rule R55), so a larger number is none. -/
def wordOfNat (w : Nat) : Option CommandWord :=
  if w < 2 ^ 20 then some (BitVec.ofNat 20 w) else none

/-- The command the decoder reads from the number `w` of `nbits` bits, numbered as spec/opcode_table.json numbers them:
a command word reaches CORE whole (20_memory.md rule R41), so no byte order enters. -/
def decodeTableWord (nbits w : Nat) : Option Instr :=
  (wordOfNat (w % 2 ^ nbits)).map decode

end Sys2Proof
end

