-- ==== Sys2Proof/Machine/Tables.lean ====
section
/-! DEFINITION. Table sets, the check of a table set, the inverse of a permutation table, and the default tables
(40_bitvector_primitives.md rules R81, R82; 00_scope.md rules R6, R7). -/

namespace Sys2Proof

/-- A permutation table: 1-based source positions, output position 1 first (00_scope.md rule R11). -/
abbrev PermTable := List Nat

/-- An S-box: rows of columns of values (00_scope.md rules R6, R11), both numbered from 0. -/
abbrev SboxTable := List (List Nat)

/-- `TABLES` (00_scope.md rule R6). FP is not a field: it is the inverse of IP (40_bitvector_primitives.md rule R82). -/
structure Tables where
  p10 : PermTable
  p8 : PermTable
  ip : PermTable
  ep : PermTable
  p4 : PermTable
  s0 : SboxTable
  s1 : SboxTable
deriving DecidableEq, Repr

/-- `table_ok(table, m, n)` (40_bitvector_primitives.md rule R81): exactly `m` entries, each in 1 to `n`. -/
def tableOk (table : PermTable) (m n : Nat) : Bool :=
  table.length == m && table.all fun p => decide (1 ≤ p) && decide (p ≤ n)

/-- The table contains each position 1 to `m` exactly once (rule R81, for IP). -/
def eachOnce (table : PermTable) (m : Nat) : Bool :=
  (List.range m).all fun j => table.count (j + 1) == 1

/-- 4 rows of 4 entries in 0 to 3 (rule R81). -/
def sboxOk (box : SboxTable) : Bool :=
  box.length == 4 && box.all fun row => row.length == 4 && row.all fun v => decide (v ≤ 3)

/-- The table set satisfies 00_scope.md rule R6, as 40_bitvector_primitives.md rule R81 spells it out. -/
def Tables.ok (T : Tables) : Bool :=
  tableOk T.p10 10 10 && tableOk T.p8 8 10 && tableOk T.ip 8 8 && eachOnce T.ip 8 &&
    tableOk T.ep 8 4 && tableOk T.p4 4 4 && sboxOk T.s0 && sboxOk T.s1

/-- `inverse(table)` (40_bitvector_primitives.md rule R82): `U[T[i] - 1] = i + 1`, so entry `j` of the inverse is one
more than the index at which the table names position `j + 1`. -/
def inverse (table : PermTable) : PermTable :=
  (List.range table.length).map fun j => table.idxOf (j + 1) + 1

/-- `FP = inverse(IP)` (40_bitvector_primitives.md rule R82). -/
def Tables.fp (T : Tables) : PermTable := inverse T.ip

/-- `TABLES_STD` (00_scope.md rule R7): the textbook S-DES tables. PRESUMED: general knowledge, not in the source (log 4). -/
def tablesStd : Tables where
  p10 := [3, 5, 2, 7, 4, 10, 1, 9, 8, 6]
  p8 := [6, 3, 7, 4, 8, 5, 10, 9]
  ip := [2, 6, 3, 1, 4, 8, 5, 7]
  ep := [4, 1, 2, 3, 2, 3, 4, 1]
  p4 := [2, 4, 3, 1]
  s0 := [[1, 0, 3, 2], [3, 2, 1, 0], [0, 2, 1, 3], [3, 1, 3, 2]]
  s1 := [[0, 1, 2, 3], [2, 0, 1, 3], [3, 0, 1, 0], [2, 1, 0, 3]]

end Sys2Proof
end

