-- ==== Sys2Proof/Machine/Units.lean ====
section
/-! DEFINITION. The BitVector datapath units (40_bitvector_primitives.md rules R75 to R84): pure functions that answer a
value or raise an error kind. Concatenation (rule R76) is `++` on Bitstrings and cannot fail. -/

namespace Sys2Proof

/-- `split(input, at)` (rule R77). -/
def splitBits (input : Bitstring) (at' : Nat) : Except ErrorKind (Bitstring × Bitstring) :=
  if input.length < at' then .error .invalidSplit else .ok (input.take at', input.drop at')

/-- The bits that a table of 1-based positions names, in its order. The default bit of `getD` is read only where a
position is out of range, which `permute` excludes. -/
def selectBits (input : Bitstring) (table : PermTable) : Bitstring := table.map fun p => input.getD (p - 1) false

/-- `permute(input, table)` (rule R78): the check of every entry first, then `out[i] = input[table[i] - 1]`. -/
def permute (input : Bitstring) (table : PermTable) : Except ErrorKind Bitstring :=
  if table.all fun p => decide (1 ≤ p) && decide (p ≤ input.length) then .ok (selectBits input table)
  else .error .lengthMismatch

/-- `lcs(input, n)`, the circular left shift (rule R79): `out = input[n..|input|) ++ input[0..n)`. -/
def lcs (input : Bitstring) (n : Nat) : Except ErrorKind Bitstring :=
  if input.length ≤ n then .error .invalidShift else .ok (input.drop n ++ input.take n)

/-- `xor(a, b)` (rule R80). -/
def xorBits (a b : Bitstring) : Except ErrorKind Bitstring :=
  if a.length = b.length then .ok (List.zipWith Bool.xor a b) else .error .lengthMismatch

/-- `box[row][col]` (rule R84); every index of a 4 by 4 box is in range (rule R81). -/
def boxEntry (box : SboxTable) (row col : Nat) : Nat := (box.getD row []).getD col 0

/-- `sbox(box, x)`, the S-box lookup (rule R84): outer bits give the row, inner bits the column, the first-named bit the
more significant; the entry comes out most significant bit first (the spec's decisions D10, D11, log 5). -/
def sbox (box : SboxTable) : Bitstring → Except ErrorKind Bitstring
  | [x0, x1, x2, x3] => .ok (bits sboxOutW (boxEntry box (2 * x0.toNat + x3.toNat) (2 * x1.toNat + x2.toNat)))
  | _ => .error .lengthMismatch

end Sys2Proof
end

