-- ==== Sys2Proof/Machine/KeySchedule.lean ====
section
/-! DEFINITION. The key schedule engine (41_key_schedule.md rule R100), with the intermediate values it names. -/

namespace Sys2Proof

/-- The values of `KS(k)`, under the names of 41_key_schedule.md rule R100. -/
structure KeyParts where
  p : Bitstring
  l : Bitstring
  r : Bitstring
  l1 : Bitstring
  r1 : Bitstring
  i1 : Bitstring
  k1 : Bitstring
  l2 : Bitstring
  r2 : Bitstring
  i2 : Bitstring
  k2 : Bitstring
deriving DecidableEq, Repr

/-- `KS(k)` with its intermediate values: the length check first (rule R101), then the five steps; the second shift
starts from the already shifted halves (rule R102). -/
def keyParts (T : Tables) (k : Bitstring) : Except ErrorKind KeyParts :=
  if k.length ≠ keyW then .error .lengthMismatch
  else do
    let p ← permute k T.p10
    let (l, r) ← splitBits p keyHalfW
    let l1 ← lcs l shift1
    let r1 ← lcs r shift1
    let i1 := l1 ++ r1
    let k1 ← permute i1 T.p8
    let l2 ← lcs l1 shift2
    let r2 ← lcs r1 shift2
    let i2 := l2 ++ r2
    let k2 ← permute i2 T.p8
    return { p, l, r, l1, r1, i1, k1, l2, r2, i2, k2 }

/-- `KS(k)`: the ordered pair `(K1, K2)` (rule R100). -/
def keySchedule (T : Tables) (k : Bitstring) : Except ErrorKind (Bitstring × Bitstring) := do
  let ks ← keyParts T k
  return (ks.k1, ks.k2)

end Sys2Proof
end

