-- ==== Sys2Proof/Machine/Feistel.lean ====
section
/-! DEFINITION. The Feistel processor (42_feistel_datapath.md rules R115 to R125). -/

namespace Sys2Proof

/-- The four named values of `Fparts(R, K)` (42_feistel_datapath.md rule R117). -/
structure FParts where
  e : Bitstring
  x : Bitstring
  s : Bitstring
  q : Bitstring
deriving DecidableEq, Repr

/-- `Fparts(R, K)` (rule R117): expand, add the round key, look up S0 with the left four bits and S1 with the right
four, permute by P4. -/
def fParts (T : Tables) (r k : Bitstring) : Except ErrorKind FParts := do
  let e ← permute r T.ep
  let x ← xorBits e k
  let (xa, xb) ← splitBits x halfW
  let sa ← sbox T.s0 xa
  let sb ← sbox T.s1 xb
  let s := sa ++ sb
  let q ← permute s T.p4
  return { e, x, s, q }

/-- `F(R, K)` (rule R117). -/
def keyedF (T : Tables) (r k : Bitstring) : Except ErrorKind Bitstring := do
  let f ← fParts T r k
  return f.q

/-- `fk(L, R, K) = xor(F(R, K), L)` (rule R118): the new left half. -/
def fk (T : Tables) (l r k : Bitstring) : Except ErrorKind Bitstring := do
  let q ← keyedF T r k
  xorBits q l

/-- `round(t, K)` (rule R119): the left half is replaced, the right half passes through. -/
def feistelRound (T : Tables) (t k : Bitstring) : Except ErrorKind Bitstring := do
  let (l, r) ← splitBits t halfW
  let f ← fk T l r k
  return f ++ r

/-- `SW(t)`, the swap of the halves (rule R120). -/
def swapHalves (t : Bitstring) : Except ErrorKind Bitstring := do
  let (a, c) ← splitBits t halfW
  return c ++ a

/-- The values of `feistel(b, Ka, Kb)` under the names of rule R124; `f1Parts` holds `e1, x1, s1, q1` and `f2Parts`
holds `e2, x2, s2, q2`. -/
structure FeistelParts where
  ip : Bitstring
  l1 : Bitstring
  r1 : Bitstring
  f1Parts : FParts
  f1 : Bitstring
  st1 : Bitstring
  sw : Bitstring
  l2 : Bitstring
  r2 : Bitstring
  f2Parts : FParts
  f2 : Bitstring
  st2 : Bitstring
  out : Bitstring
deriving DecidableEq, Repr

/-- `feistel(b, Ka, Kb)` with its intermediate values (rule R124): IP, round 1 under `Ka`, swap, round 2 under `Kb`, no
swap, FP. -/
def feistelParts (T : Tables) (b ka kb : Bitstring) : Except ErrorKind FeistelParts := do
  let ip ← permute b T.ip
  let (l1, r1) ← splitBits ip halfW
  let f1Parts ← fParts T r1 ka
  let f1 ← xorBits f1Parts.q l1
  let st1 := f1 ++ r1
  let (a, c) ← splitBits st1 halfW
  let sw := c ++ a
  let (l2, r2) ← splitBits sw halfW
  let f2Parts ← fParts T r2 kb
  let f2 ← xorBits f2Parts.q l2
  let st2 := f2 ++ r2
  let out ← permute st2 T.fp
  return { ip, l1, r1, f1Parts, f1, st1, sw, l2, r2, f2Parts, f2, st2, out }

/-- `feistel(b, Ka, Kb)`: the output block (rule R124). -/
def feistel (T : Tables) (b ka kb : Bitstring) : Except ErrorKind Bitstring := do
  let fe ← feistelParts T b ka kb
  return fe.out

/-- The source's `encrypt` as a function of its operands (42_feistel_datapath.md rule R131): `feistel(P, K1, K2)`. -/
def encryptBlock (T : Tables) (b k : Bitstring) : Except ErrorKind Bitstring := do
  let (k1, k2) ← keySchedule T k
  feistel T b k1 k2

/-- The source's `decrypt` as a function of its operands (rule R131): `feistel(C, K2, K1)`. -/
def decryptBlock (T : Tables) (b k : Bitstring) : Except ErrorKind Bitstring := do
  let (k1, k2) ← keySchedule T k
  feistel T b k2 k1

end Sys2Proof
end

