-- ==== Sys2Proof/Config.lean ====
section
/-! DEFINITION. What is fixed when an instance is built: the table set and the one other parameter that the core itself
has (00_scope.md rules R6, R8; 10_state.md rule R31).
There is no free value here: the spec leaves no value of CORE undefined. -/

namespace Sys2Proof

/-- `TRACE_ON_REJECT` (00_scope.md rule R8): what a rejected ENC or DEC does to the trace (43_commands.md rule R150). -/
inductive TraceOnReject where
  | keep
  | clear
deriving DecidableEq, Repr

/-- The configuration of an instance. It carries the check of its table set, "applied to the configuration once and never
at run time" (40_bitvector_primitives.md rule R81), so no core with another table set can be written down (log 3). -/
structure Config where
  tables : Tables
  traceOnReject : TraceOnReject
  tablesOk : tables.ok = true
deriving DecidableEq, Repr

/-- The configuration of a table set and a parameter; none for a table set that fails the check (rule R81). -/
def Config.build (tables : Tables) (traceOnReject : TraceOnReject) : Option Config :=
  if h : tables.ok = true then some { tables, traceOnReject, tablesOk := h } else none

/-- The default configuration: `TABLES_STD` (00_scope.md rule R7, log 4) and `TRACE_ON_REJECT = keep`
(00_scope.md rule R8, log 8). -/
def configStd : Config where
  tables := tablesStd
  traceOnReject := .keep
  tablesOk := by decide

end Sys2Proof
end

