-- ==== Sys2Proof/Machine/State.lean ====
section
/-! DEFINITION. The state of one instance of CORE, what it exchanges with its host, and the reasons a step or a build can stop.
CORE has one piece of architectural state, the trace log (10_state.md rules R20, R24 to R30). -/

namespace Sys2Proof.Machine

/-- The labels of the trace (10_state.md rule R22), in the order of their `label_id` (30_encoding.md rule R63).
The text of a label and its number are in Machine/ResponseWords.lean. -/
inductive Label where
  | afterP10
  | afterLS1
  | k1
  | afterLS2
  | k2
  | afterIP
  | round1EP
  | round1XOR
  | round1Sboxes
  | round1P4
  | round1Fk
  | afterRound1
  | afterSwap
  | round2EP
  | round2XOR
  | round2Sboxes
  | round2P4
  | round2Fk
  | afterRound2
  | finalCiphertext
  | finalPlaintext
deriving DecidableEq, Repr

/-- One pair `(label, b)` of the trace (10_state.md rule R20). -/
structure TraceEntry where
  label : Label
  value : Bitstring
deriving DecidableEq, Repr

/-- The response of a command (43_commands.md rule R141). -/
inductive Response where
  /-- The result block of ENC or DEC. -/
  | okBlock (c : Bitstring)
  /-- The round keys of KSCH. -/
  | okKeys (k1 k2 : Bitstring)
  /-- The trace, for LOG. -/
  | okLog (t : List TraceEntry)
  /-- The command failed. It carries nothing but the kind. -/
  | err (e : ErrorKind)
deriving DecidableEq, Repr

/-- What a host may send to an instance (60_exceptions.md rule R206). -/
inductive HostEvent where
  /-- A command word at the bit-level port (30_encoding.md rule R55). -/
  | word (w : CommandWord)
  /-- A command at the abstract interface, its operands of any length (43_commands.md rule R140). -/
  | command (i : Instr)
  /-- The reset event, which has no command word (70_reset_and_hazards.md rule R211). -/
  | reset
deriving DecidableEq, Repr

/-- The state of one instance. `trace` is all the spec calls state (10_state.md rule R20).
`config` is the configuration the instance was built with, a parameter of the step (rule R31) that no step writes (log 3).
`pending` and `response` are the two ends of the host interface: what the host is going to send, in its program order
(log 1), and the response of the most recent command (log 2). -/
structure State where
  config : Config
  trace : List TraceEntry
  pending : List HostEvent
  response : Option Response
deriving DecidableEq, Repr

/-- CORE has no stop: "There is no fatal/process-level error class" (60_exceptions.md rule R185). An error kind is a
response, after which the machine goes on (rules R196, R197), so there is no constructor. -/
inductive Fault where
deriving DecidableEq, Repr

/-- Why the model gives no meaning. -/
inductive Refusal where
  /-- An arm of exec without a meaning. No arm raises it. Safe: nothing is claimed of what is refused. -/
  | notModelled (mnemonic : String)
  /-- Raised by State.build, and by nothing else, for a table set that fails `table_ok`
  (40_bitvector_primitives.md rule R81: "A model should refuse to build a core from a table set that fails the check").
  Safe: such a core cannot be written down (log 3). -/
  | tablesNotOk
deriving DecidableEq, Repr

/-- The instance of a configuration in its reset state (70_reset_and_hazards.md rule R210): the trace is empty, the host
has sent nothing (log 1) and got nothing (log 2). -/
def State.ofConfig (c : Config) : State where
  config := c
  trace := []
  pending := []
  response := none

/-- The instance right after reset (70_reset_and_hazards.md rule R210): the trace is empty. The configuration is the
spec's default (00_scope.md rules R7, R8; log 4, log 8), the host has sent nothing (log 1) and got nothing (log 2). -/
def State.reset : State where
  config := configStd
  trace := []
  pending := []
  response := none

end Sys2Proof.Machine
end

