-- ==== Sys2Proof/Machine/Ops.lean ====
section
/-! DEFINITION. The named operations over the state: building a core, responding, failing, writing the trace, and the block operation that
ENC and DEC share (43_commands.md rules R141 to R150; 60_exceptions.md rules R196, R197). -/

namespace Sys2Proof.Machine

/-- Builds a core from a table set and a parameter, in its reset state, or refuses a table set that fails the check
(40_bitvector_primitives.md rule R81; 93_implementation_defined.md U15). The check is made here, once: a step makes none. -/
def State.build (tables : Tables) (traceOnReject : TraceOnReject) : Except Refusal State :=
  match Config.build tables traceOnReject with
  | some c => .ok (State.ofConfig c)
  | none => .error .tablesNotOk

/-- Delivers the response of the command (43_commands.md rule R141). -/
def State.respond (s : State) (r : Response) : State := { s with response := some r }

/-- `TRACE <- t`: the old trace is gone whole (70_reset_and_hazards.md rule R213). -/
def State.setTrace (s : State) (t : List TraceEntry) : State := { s with trace := t }

/-- A command fails (60_exceptions.md rule R196, the nearest thing CORE has to taking an exception): the response is the
error kind, and nothing is saved, latched or jumped to. There is no return from it (rule R197): the instance is ready
for the next command. -/
def State.fail (s : State) (e : ErrorKind) : State := s.respond (.err e)

/-- What a rejected ENC or DEC does to the trace first (43_commands.md rule R150). -/
def State.traceOnReject (s : State) : State :=
  match s.config.traceOnReject with
  | .keep => s
  | .clear => s.setTrace []

/-- A rejected ENC or DEC: the trace by rule R150, then the error. -/
def State.rejectBlock (s : State) (e : ErrorKind) : State := s.traceOnReject.fail e

/-- The reset event (70_reset_and_hazards.md rules R210, R211): the trace is emptied, and the host gets back nothing
(60_exceptions.md rule R206). -/
def State.applyReset (s : State) : State := { s with trace := [], response := none }

/-- `trace_of(final_label, k, b, Ka, Kb)` (43_commands.md rule R144): the 20 entries of 10_state.md rule R22, from the
values of the key schedule and of the Feistel processor. -/
def traceOf (finalLabel : Label) (ks : KeyParts) (fe : FeistelParts) : List TraceEntry :=
  [⟨.afterP10, ks.p⟩, ⟨.afterLS1, ks.i1⟩, ⟨.k1, ks.k1⟩, ⟨.afterLS2, ks.i2⟩, ⟨.k2, ks.k2⟩,
   ⟨.afterIP, fe.ip⟩,
   ⟨.round1EP, fe.f1Parts.e⟩, ⟨.round1XOR, fe.f1Parts.x⟩, ⟨.round1Sboxes, fe.f1Parts.s⟩, ⟨.round1P4, fe.f1Parts.q⟩,
   ⟨.round1Fk, fe.f1⟩, ⟨.afterRound1, fe.st1⟩, ⟨.afterSwap, fe.sw⟩,
   ⟨.round2EP, fe.f2Parts.e⟩, ⟨.round2XOR, fe.f2Parts.x⟩, ⟨.round2Sboxes, fe.f2Parts.s⟩, ⟨.round2P4, fe.f2Parts.q⟩,
   ⟨.round2Fk, fe.f2⟩, ⟨.afterRound2, fe.st2⟩, ⟨finalLabel, fe.out⟩]

/-- What ENC and DEC compute, in the order of the pseudocode (43_commands.md rules R145, R147): the key schedule, then
the block transform with the round keys in the order `order` gives. -/
def blockParts (T : Tables) (order : KeyParts → Bitstring × Bitstring) (b k : Bitstring) :
    Except ErrorKind (KeyParts × FeistelParts) := do
  let ks ← keyParts T k
  let fe ← feistelParts T b (order ks).1 (order ks).2
  return (ks, fe)

/-- ENC hands K1 to round 1 and K2 to round 2 (43_commands.md rule R145). -/
def encryptOrder (ks : KeyParts) : Bitstring × Bitstring := (ks.k1, ks.k2)

/-- DEC hands K2 to round 1 and K1 to round 2 (43_commands.md rule R147). -/
def decryptOrder (ks : KeyParts) : Bitstring × Bitstring := (ks.k2, ks.k1)

/-- The operation ENC and DEC share: both operands are checked before anything else (43_commands.md rule R142); a
well-formed command writes the whole trace in one assignment (rule R149) and responds with the block.
An error of a unit is the command's error (60_exceptions.md rule R190); for a table set that passes the check there is
none (40_bitvector_primitives.md rule R89), and the trace is then as for a rejected command (log 5). -/
def blockCommand (finalLabel : Label) (order : KeyParts → Bitstring × Bitstring) (b k : Bitstring) (s : State) : State :=
  if b.length ≠ blockW ∨ k.length ≠ keyW then s.rejectBlock .lengthMismatch
  else
    match blockParts s.config.tables order b k with
    | .ok (ks, fe) => (s.setTrace (traceOf finalLabel ks fe)).respond (.okBlock fe.out)
    | .error e => s.rejectBlock e

end Sys2Proof.Machine
end

