-- ==== Sys2Proof/Machine/Block.lean ====
section
/-! DEFINITION. The block operations ENC and DEC (43_commands.md rules R145, R147). -/

namespace Sys2Proof.Machine

/-- `ENC b, k` (43_commands.md rule R145): K1 in round 1, K2 in round 2, last label `final ciphertext`. -/
def execEnc (b k : Bitstring) (s : State) : Host.Outcome State Fault Refusal :=
  .next (blockCommand .finalCiphertext encryptOrder b k s)

/-- `DEC b, k` (43_commands.md rule R147): the same structure with K2 in round 1 and K1 in round 2, last label
`final plaintext`. -/
def execDec (b k : Bitstring) (s : State) : Host.Outcome State Fault Refusal :=
  .next (blockCommand .finalPlaintext decryptOrder b k s)

end Sys2Proof.Machine
end

