-- ==== Sys2Proof/Machine/Query.lean ====
section
/-! DEFINITION. The commands that write no architectural state: LOG and KSCH (43_commands.md rules R152, R143). -/

namespace Sys2Proof.Machine

/-- `LOG` (43_commands.md rule R152): responds with the trace, which is not consumed. It cannot fail. -/
def execLog (s : State) : Host.Outcome State Fault Refusal :=
  .next (s.respond (.okLog s.trace))

/-- `KSCH k` (43_commands.md rule R143): the operand check, then the round keys; the trace is neither read nor written,
also when the command is rejected (rule R150). -/
def execKsch (k : Bitstring) (s : State) : Host.Outcome State Fault Refusal :=
  .next <|
    if k.length ≠ keyW then s.fail .lengthMismatch
    else
      match keySchedule s.config.tables k with
      | .ok (k1, k2) => s.respond (.okKeys k1 k2)
      | .error e => s.fail e

end Sys2Proof.Machine
end

