-- ==== Sys2Proof/Machine/Dispatch.lean ====
section
/-! DEFINITION. One arm per command (43_commands.md rules R140, R155). -/

namespace Sys2Proof.Machine

def exec (i : Instr) (s : State) : Host.Outcome State Fault Refusal :=
  match i with
  | .log => Sys2Proof.Machine.execLog s
  | .ksch k => Sys2Proof.Machine.execKsch k s
  | .enc b k => Sys2Proof.Machine.execEnc b k s
  | .dec b k => Sys2Proof.Machine.execDec b k s

end Sys2Proof.Machine
end

