-- ==== Sys2Proof/Machine/Step.lean ====
section
/-! DEFINITION. One step: the instance takes the next thing its host sends and does it, whole (43_commands.md rule R140;
20_memory.md rules R44, R49; 70_reset_and_hazards.md rules R211, R218). -/

namespace Sys2Proof.Machine

/-- One step of the instance.
With nothing sent the instance is quiescent and nothing changes (70_reset_and_hazards.md rule R218, log 9). -/
def step (s : State) : Host.Outcome State Fault Refusal :=
  match s.pending with
  | [] => .next s
  | .word w :: rest => exec (decode w) { s with pending := rest }
  | .command i :: rest => exec i { s with pending := rest }
  | .reset :: rest => .next ({ s with pending := rest }.applyReset)

/-- The host sends one more event, ahead of what it was going to send (log 15). -/
def State.send (s : State) (e : HostEvent) : State := { s with pending := e :: s.pending }

/-- `s` with the command word `w` as the next thing the host sends. A number that is no 20-bit word sends nothing
(`decodeTableWord` is none for it; log 15). -/
def State.withFetchWord (s : State) (nbits w : Nat) : State :=
  match wordOfNat (w % 2 ^ nbits) with
  | some c => s.send (.word c)
  | none => s

end Sys2Proof.Machine
end

