-- ==== Sys2Proof/Machine/Assembler.lean ====
section
/-! DEFINITION. The textual form of a command, its aliases, and the assembler (30_encoding.md rules R60, R64, R65).
Text is a list of characters. What separates the parts of a line is the model's choice (log 16). -/

namespace Sys2Proof

/-- A part of a line. -/
inductive Token where
  | atom (chars : List Char)
  | comma
  | openParen
  | closeParen
deriving DecidableEq, Repr

/-- Why a line has no command. -/
inductive AsmError where
  /-- The line has none of the forms of 30_encoding.md rules R64, R65. -/
  | badLine
  /-- An operand is no Bitstring literal. -/
  | badOperand
  /-- An operand has a wrong length, so that the command has no word (30_encoding.md rule R60). -/
  | malformedOperand
deriving DecidableEq, Repr

def isBlank (c : Char) : Bool := c == ' ' || c == '\t' || c == '\r'

/-- The double quote, by its number. -/
def quoteChar : Char := Char.ofNat 34

/-- The atom read so far, if there is one. -/
def flushAtom (acc : List Char) : List Token := if acc.isEmpty then [] else [.atom acc.reverse]

/-- The tokens of a line; `acc` is the atom being read, last character first. A `#` starts a comment (rule R64). -/
def tokens (acc : List Char) : List Char → List Token
  | [] => flushAtom acc
  | c :: rest =>
    if c == '#' then flushAtom acc
    else if isBlank c then flushAtom acc ++ tokens [] rest
    else if c == ',' then flushAtom acc ++ .comma :: tokens [] rest
    else if c == '(' then flushAtom acc ++ .openParen :: tokens [] rest
    else if c == ')' then flushAtom acc ++ .closeParen :: tokens [] rest
    else tokens (c :: acc) rest

/-- A run of the digits 0 and 1, leftmost bit first (rule R64). -/
def digits : List Char → Option Bitstring
  | [] => some []
  | c :: rest =>
    if c == '0' then (digits rest).map (false :: ·)
    else if c == '1' then (digits rest).map (true :: ·)
    else none

/-- What stands between two double quotes. -/
def unquote (cs : List Char) : Option (List Char) :=
  match cs with
  | q :: rest => if q == quoteChar && rest.getLast? == some quoteChar then some rest.dropLast else none
  | [] => none

/-- An operand: a Bitstring literal, optionally in double quotes (rule R64). -/
def operand (cs : List Char) : Except AsmError Bitstring :=
  match digits ((unquote cs).getD cs) with
  | some b => .ok b
  | none => .error .badOperand

/-- A command from two operand texts. -/
def twoOperands (make : Bitstring → Bitstring → Instr) (b k : List Char) : Except AsmError (Option Instr) :=
  match operand b with
  | .error e => .error e
  | .ok block =>
    match operand k with
    | .error e => .error e
    | .ok key => .ok (some (make block key))

def mnemonicLog : List Char := ['L', 'O', 'G']
def mnemonicKsch : List Char := ['K', 'S', 'C', 'H']
def mnemonicEnc : List Char := ['E', 'N', 'C']
def mnemonicDec : List Char := ['D', 'E', 'C']
def aliasGetLog : List Char := ['g', 'e', 't', 'L', 'o', 'g']
def aliasEncrypt : List Char := ['e', 'n', 'c', 'r', 'y', 'p', 't']
def aliasDecrypt : List Char := ['d', 'e', 'c', 'r', 'y', 'p', 't']

/-- The command of a tokenised line, in the forms of rule R64 and the aliases of rule R65; an empty line has none. -/
def parseTokens : List Token → Except AsmError (Option Instr)
  | [] => .ok none
  | [.atom m] => if m = mnemonicLog then .ok (some .log) else .error .badLine
  | [.atom m, .atom k] =>
    if m = mnemonicKsch then
      match operand k with
      | .ok key => .ok (some (.ksch key))
      | .error e => .error e
    else .error .badLine
  | [.atom m, .atom b, .comma, .atom k] =>
    if m = mnemonicEnc then twoOperands .enc b k
    else if m = mnemonicDec then twoOperands .dec b k
    else .error .badLine
  | [.atom m, .openParen, .closeParen] => if m = aliasGetLog then .ok (some .log) else .error .badLine
  | [.atom m, .openParen, .atom b, .comma, .atom k, .closeParen] =>
    if m = aliasEncrypt then twoOperands .enc b k
    else if m = aliasDecrypt then twoOperands .dec b k
    else .error .badLine
  | _ => .error .badLine

/-- The command of one line of text (rules R64, R65). -/
def parseLine (line : List Char) : Except AsmError (Option Instr) := parseTokens (tokens [] line)

/-- The words of the lines, numbered from `n`; a line that cannot be assembled is named (rule R60). -/
def assembleFrom : Nat → List (List Char) → Except (Nat × AsmError) (List CommandWord)
  | _, [] => .ok []
  | n, line :: rest =>
    match parseLine line with
    | .error e => .error (n, e)
    | .ok none => assembleFrom (n + 1) rest
    | .ok (some i) =>
      match encode i with
      | none => .error (n, .malformedOperand)
      | some w =>
        match assembleFrom (n + 1) rest with
        | .error e => .error e
        | .ok ws => .ok (w :: ws)

/-- The assembler: line numbers start at 1. -/
def assemble (lines : List (List Char)) : Except (Nat × AsmError) (List CommandWord) := assembleFrom 1 lines

/-- A Bitstring as digits. -/
def renderBits (b : Bitstring) : List Char := b.map fun x => if x then '1' else '0'

/-- The text of a command (rule R64). An operand is written in double quotes, the only way to write one of no digits. -/
def renderOperand (b : Bitstring) : List Char := quoteChar :: (renderBits b ++ [quoteChar])

def render : Instr → List Char
  | .log => mnemonicLog
  | .ksch k => mnemonicKsch ++ ' ' :: renderOperand k
  | .enc b k => mnemonicEnc ++ ' ' :: (renderOperand b ++ ',' :: ' ' :: renderOperand k)
  | .dec b k => mnemonicDec ++ ' ' :: (renderOperand b ++ ',' :: ' ' :: renderOperand k)

end Sys2Proof
end

