-- ==== Sys2Proof/Machine/Platform.lean ====
section
/-! DEFINITION. A platform of several instances (60_exceptions.md rule R203; 00_scope.md rule R8, `N_INSTANCES`). The
instances are identical, so the platform has ONE configuration; each has a trace and a host of its own, and they share
nothing else (10_state.md rule R21; 20_memory.md rule R50). Which instance moves next is the schedule's choice (log 14). -/

namespace Sys2Proof.Machine

/-- What one instance of a platform has for itself: the fields of State other than the configuration. -/
structure InstanceState where
  trace : List TraceEntry
  pending : List HostEvent
  response : Option Response
deriving DecidableEq, Repr

/-- The instance as a machine, under the configuration of its platform. -/
def InstanceState.on (i : InstanceState) (c : Config) : State where
  config := c
  trace := i.trace
  pending := i.pending
  response := i.response

/-- What an instance has for itself. -/
def State.own (s : State) : InstanceState where
  trace := s.trace
  pending := s.pending
  response := s.response

/-- `N_INSTANCES >= 1` identical instances (60_exceptions.md rule R203); `N_INSTANCES` is the length of the list. -/
structure Platform where
  config : Config
  instances : List InstanceState
  atLeastOne : 0 < instances.length
deriving DecidableEq, Repr

/-- `n` instances of one configuration, each in the reset state (60_exceptions.md rule R203); none for `n = 0`. -/
def Platform.build (c : Config) (n : Nat) : Option Platform :=
  if h : 0 < n then
    some { config := c, instances := List.replicate n (State.ofConfig c).own, atLeastOne := by simpa using h }
  else none

/-- What an instance has after one step. A step always has a next state; the other two arms change nothing. -/
def InstanceState.move (c : Config) (i : InstanceState) : InstanceState :=
  match step (i.on c) with
  | .next t => t.own
  | .fault _ => i
  | .refused _ => i

/-- Instance `n` takes one step; a number without an instance changes nothing. -/
def Platform.advance (p : Platform) (n : Nat) : Platform where
  config := p.config
  instances := p.instances.modify n (InstanceState.move p.config)
  atLeastOne := by simpa using p.atLeastOne

/-- The instances move in the order of the schedule. -/
def Platform.run (p : Platform) (schedule : List Nat) : Platform := schedule.foldl Platform.advance p

end Sys2Proof.Machine
end

