-- ==== Sys2Proof/Machine/HostProcedures.lean ====
section
/-! DEFINITION. The host procedures built on the core (45_host_procedures.md). They are software outside CORE
(00_scope.md rule R4): each issues ENC and DEC to an instance, or to one instance per worker, and works on the responses. -/

namespace Sys2Proof.Machine

/-- Why a host procedure stops. -/
inductive HostStop where
  /-- An error kind, of a command's response or of the procedure itself (45_host_procedures.md rule R165). -/
  | error (e : ErrorKind)
  /-- A response that is neither a block nor an error. ENC and DEC never give one. -/
  | unexpectedReply
  /-- A worker without an instance of its own (60_exceptions.md rule R203). -/
  | noInstance
deriving DecidableEq, Repr

/-- The host issues one command and takes its response. -/
def issue (i : Instr) (s : State) : Option Response × State :=
  match exec i s with
  | .next t => (t.response, t)
  | .fault _ => (none, s)
  | .refused _ => (none, s)

/-- The block of an `ok_block` response; an error response stops the procedure (rule R165). -/
def blockReply : Option Response → Except HostStop Bitstring
  | some (.okBlock c) => .ok c
  | some (.err e) => .error (.error e)
  | some (.okKeys _ _) => .error .unexpectedReply
  | some (.okLog _) => .error .unexpectedReply
  | none => .error .unexpectedReply

/-- `encrypt(P, K)` inside a host procedure (rule R165). -/
def hostEncrypt (p k : Bitstring) (s : State) : Except HostStop Bitstring × State :=
  (blockReply (issue (.enc p k) s).1, (issue (.enc p k) s).2)

/-- `decrypt(C, K)` inside a host procedure (rule R165). -/
def hostDecrypt (c k : Bitstring) (s : State) : Except HostStop Bitstring × State :=
  (blockReply (issue (.dec c k) s).1, (issue (.dec c k) s).2)

/-- One action for each element, in order, on one instance; the first stop ends the procedure with no further command. -/
def forEach {α β : Type} (f : α → State → Except HostStop β × State) :
    List α → State → Except HostStop (List β) × State
  | [], s => (.ok [], s)
  | a :: rest, s =>
    match f a s with
    | (.error e, s') => (.error e, s')
    | (.ok y, s') =>
      match forEach f rest s' with
      | (.error e, s'') => (.error e, s'')
      | (.ok ys, s'') => (.ok (y :: ys), s'')

/-! ## Text Codec -/

/-- One character of `encryptAsciiToBlocks` (rule R166): the code point must fit in 8 bits, the check made as the
character is reached (the spec's decision D25, log 10). -/
def encryptCharacter (key : Bitstring) (cp : Nat) (s : State) : Except HostStop Bitstring × State :=
  if 255 < cp then (.error (.error .unsupportedCharacter), s) else hostEncrypt (bits blockW cp) key s

/-- One block of `decryptBlocksToAscii` (rule R168): the character code is the value of the block. -/
def decryptCharacter (key : Bitstring) (b : Bitstring) (s : State) : Except HostStop Nat × State :=
  ((hostDecrypt b key s).1.map val, (hostDecrypt b key s).2)

/-- `encryptAsciiToBlocks(text, key10)` (rule R166); a text is the list of its code points (log 10). -/
def encryptAsciiToBlocks (text : List Nat) (key : Bitstring) (s : State) : Except HostStop (List Bitstring) × State :=
  forEach (encryptCharacter key) text s

/-- `decryptBlocksToAscii(blocks, key10)` (rule R168). -/
def decryptBlocksToAscii (blocks : List Bitstring) (key : Bitstring) (s : State) : Except HostStop (List Nat) × State :=
  forEach (decryptCharacter key) blocks s

/-! ## Brute-Force Search -/

/-- The master key of a key number: `bits_10(K)` (rule R174). -/
def keyOfNumber (n : Nat) : Bitstring := bits keyW n

/-- How the keyspace is divided (00_scope.md rule R8, `SHARDING`). -/
inductive Sharding where
  | contiguous
  | striped
deriving DecidableEq, Repr

/-- The arguments of a search other than its pairs (rules R170, R172). `stopEarly` says whether a worker leaves out the
later pairs of a key that already failed, which the source does not say (log 13). -/
structure SearchPlan where
  parallel : Bool
  workers : Nat
  sharding : Sharding
  stopEarly : Bool
deriving DecidableEq, Repr

/-- "Sequential mode is the degenerate case of one worker over the full range" (rule R172). -/
def SearchPlan.workerCount (plan : SearchPlan) : Nat := if plan.parallel then plan.workers else 1

/-- The key numbers of worker `j` of `w` (rule R172). The bounds of a contiguous shard, and that a worker tries its keys in
increasing key number, are the model's choice (log 13). -/
def shard (sharding : Sharding) (w j : Nat) : List Nat :=
  (List.range keyspace).filter fun n =>
    match sharding with
    | .contiguous => decide (j * keyspace / w ≤ n) && decide (n < (j + 1) * keyspace / w)
    | .striped => n % w == j

/-- The shards of all workers, worker 0 first. -/
def SearchPlan.shards (plan : SearchPlan) : List (List Nat) :=
  (List.range plan.workerCount).map (shard plan.sharding plan.workerCount)

/-- Whether a key satisfies the single-pair predicate for every pair (rules R170, R172). That the pairs of a key are tried
in the order of the list is the model's choice (log 13). -/
def testKey (stopEarly : Bool) (key : Bitstring) : List (Bitstring × Bitstring) → State → Except HostStop Bool × State
  | [], s => (.ok true, s)
  | (p, c) :: rest, s =>
    match hostEncrypt p key s with
    | (.error e, s') => (.error e, s')
    | (.ok c', s') =>
      if c' = c then testKey stopEarly key rest s'
      else if stopEarly then (.ok false, s')
      else
        match testKey stopEarly key rest s' with
        | (.error e, s'') => (.error e, s'')
        | (.ok _, s'') => (.ok false, s'')

/-- One key number of a worker's shard: with the verdict. -/
def testNumber (stopEarly : Bool) (pairs : List (Bitstring × Bitstring)) (n : Nat) (s : State) :
    Except HostStop (Nat × Bool) × State :=
  ((testKey stopEarly (keyOfNumber n) pairs s).1.map fun v => (n, v), (testKey stopEarly (keyOfNumber n) pairs s).2)

/-- One worker over its shard, on its own instance: the key numbers that match. That the keys are tried in the order the
shard lists them, all pairs of one key before the next key, is the model's choice (log 13). -/
def searchShard (stopEarly : Bool) (pairs : List (Bitstring × Bitstring)) (numbers : List Nat) (s : State) :
    Except HostStop (List Nat) × State :=
  ((forEach (testNumber stopEarly pairs) numbers s).1.map fun tested => (tested.filter (·.2)).map (·.1),
   (forEach (testNumber stopEarly pairs) numbers s).2)

/-- The workers' local results together, or the first stop. -/
def joinResults {α : Type} : Except HostStop α → Except HostStop (List α) → Except HostStop (List α)
  | .ok a, .ok rest => .ok (a :: rest)
  | .ok _, .error e => .error e
  | .error e, _ => .error e

/-- Each worker runs its shard on an instance of its own (60_exceptions.md rule R203). WHICH instance is the model's choice:
worker `j` uses the `j`-th of the platform, and a sequential search the first (log 13). Instances do not interact
(20_memory.md rule R50), so the workers may be run one after another (log 13). -/
def runWorkers (stopEarly : Bool) (pairs : List (Bitstring × Bitstring)) (c : Config) :
    List (List Nat) → List InstanceState → Except HostStop (List (List Nat)) × List InstanceState
  | [], instances => (.ok [], instances)
  | _ :: _, [] => (.error .noInstance, [])
  | numbers :: rest, i :: instances =>
    (joinResults (searchShard stopEarly pairs numbers (i.on c)).1 (runWorkers stopEarly pairs c rest instances).1,
     (searchShard stopEarly pairs numbers (i.on c)).2.own :: (runWorkers stopEarly pairs c rest instances).2)

/-- A search neither adds nor removes an instance. -/
theorem length_runWorkers (stopEarly : Bool) (pairs : List (Bitstring × Bitstring)) (c : Config)
    (shards : List (List Nat)) (instances : List InstanceState) :
    (runWorkers stopEarly pairs c shards instances).2.length = instances.length := by
  induction shards generalizing instances with
  | nil => rfl
  | cons numbers rest ih =>
    cases instances with
    | nil => rfl
    | cons i instances => simp [runWorkers, ih]

/-- The merged candidate key set (rule R171: no order, no duplicates), written as the list of its keys in increasing key
number so that equal sets are equal lists. -/
def candidateSet (found : List (List Nat)) : List Bitstring :=
  ((List.range keyspace).filter fun n => found.any fun numbers => numbers.contains n).map keyOfNumber

/-- A search over any shards (rule R172). -/
def searchShards (stopEarly : Bool) (pairs : List (Bitstring × Bitstring)) (shards : List (List Nat)) (p : Platform) :
    Except HostStop (List Bitstring) × Platform :=
  ((runWorkers stopEarly pairs p.config shards p.instances).1.map candidateSet,
   { config := p.config
     instances := (runWorkers stopEarly pairs p.config shards p.instances).2
     atLeastOne := by rw [length_runWorkers]; exact p.atLeastOne })

/-- `searchMultiplePairs(pairs, parallel, workerCount)` (rule R172), less the elapsed time, which the host measures
(rule R173, log 11). -/
def searchMultiplePairs (pairs : List (Bitstring × Bitstring)) (plan : SearchPlan) (p : Platform) :
    Except HostStop (List Bitstring) × Platform :=
  searchShards plan.stopEarly pairs plan.shards p

/-- `searchSinglePair(plaintext, ciphertext, parallel, workerCount)` (rule R170). -/
def searchSinglePair (plaintext ciphertext : Bitstring) (plan : SearchPlan) (p : Platform) :
    Except HostStop (List Bitstring) × Platform :=
  searchMultiplePairs [(plaintext, ciphertext)] plan p

/-! ## Collision Analyzer -/

/-- The collision map (rule R175): under a ciphertext, its keys in the order they were appended. The order of the
ciphertexts is that of an insertion-ordered map (rule R177, log 12). -/
abbrev CollisionMap := List (Bitstring × List Bitstring)

/-- Appends a key under a ciphertext (rule R175). -/
def addKey (c key : Bitstring) : CollisionMap → CollisionMap
  | [] => [(c, [key])]
  | (c', keys) :: rest => if c' = c then (c', keys ++ [key]) :: rest else (c', keys) :: addKey c key rest

/-- Tries the key numbers in order (rule R177). -/
def collectCollisions (plaintext : Bitstring) : List Nat → CollisionMap → State → Except HostStop CollisionMap × State
  | [], m, s => (.ok m, s)
  | n :: rest, m, s =>
    match hostEncrypt plaintext (keyOfNumber n) s with
    | (.error e, s') => (.error e, s')
    | (.ok c, s') => collectCollisions plaintext rest (addKey c (keyOfNumber n) m) s'

/-- `analyzeCollisions(plaintext)` (rule R175): keys 0 to 1023 in increasing order. -/
def analyzeCollisions (plaintext : Bitstring) (s : State) : Except HostStop CollisionMap × State :=
  collectCollisions plaintext (List.range keyspace) [] s

end Sys2Proof.Machine
end

