-- ==== Sys2Proof/Machine/Flags.lean ====
section
/-! DEFINITION. CORE has no flag and no condition code (10_state.md rule R26): "The outcome of a command (ok or an error
kind) is part of its response". What stands in a flag's place is the 3-bit outcome code of a status word. -/

namespace Sys2Proof.Machine

/-- The number of an error kind (60_exceptions.md rule R186). -/
def errorCode : ErrorKind → BitVec 3
  | .lengthMismatch => 1
  | .invalidShift => 2
  | .invalidSplit => 3
  | .unsupportedCharacter => 4

/-- The `code` field of a response: 0 for ok, otherwise the error's code (30_encoding.md rule R62). -/
def outcomeCode : Response → BitVec 3
  | .okBlock _ => 0
  | .okKeys _ _ => 0
  | .okLog _ => 0
  | .err e => errorCode e

end Sys2Proof.Machine
end

