-- ==== Sys2Proof/Machine/ResponseWords.lean ====
section
/-! DEFINITION. Labels as text and as numbers, and the bit-level form of a response: one status word, and one entry word
per trace entry after a successful LOG (30_encoding.md rules R62, R63; 10_state.md rule R22). -/

namespace Sys2Proof.Machine

/-- The text of a label (10_state.md rule R22). -/
def labelText : Label → String
  | .afterP10 => "after P10"
  | .afterLS1 => "after LS-1"
  | .k1 => "K1"
  | .afterLS2 => "after LS-2"
  | .k2 => "K2"
  | .afterIP => "after IP"
  | .round1EP => "round 1 EP"
  | .round1XOR => "round 1 XOR"
  | .round1Sboxes => "round 1 S-boxes"
  | .round1P4 => "round 1 P4"
  | .round1Fk => "round 1 fk output"
  | .afterRound1 => "after round 1"
  | .afterSwap => "after swap"
  | .round2EP => "round 2 EP"
  | .round2XOR => "round 2 XOR"
  | .round2Sboxes => "round 2 S-boxes"
  | .round2P4 => "round 2 P4"
  | .round2Fk => "round 2 fk output"
  | .afterRound2 => "after round 2"
  | .finalCiphertext => "final ciphertext"
  | .finalPlaintext => "final plaintext"

/-- The `label_id` of a label (30_encoding.md rule R63). -/
def labelId : Label → Nat
  | .afterP10 => 0
  | .afterLS1 => 1
  | .k1 => 2
  | .afterLS2 => 3
  | .k2 => 4
  | .afterIP => 5
  | .round1EP => 6
  | .round1XOR => 7
  | .round1Sboxes => 8
  | .round1P4 => 9
  | .round1Fk => 10
  | .afterRound1 => 11
  | .afterSwap => 12
  | .round2EP => 13
  | .round2XOR => 14
  | .round2Sboxes => 15
  | .round2P4 => 16
  | .round2Fk => 17
  | .afterRound2 => 18
  | .finalCiphertext => 19
  | .finalPlaintext => 20

/-- A status word: `code[18:16] hi[15:8] lo[7:0]` (30_encoding.md rule R62). -/
def packStatus (code : BitVec 3) (hi lo : BitVec 8) : ResponseWord := code ++ hi ++ lo

/-- The status word of a response (30_encoding.md rule R62): the payload is 0 for an error. -/
def statusWord (r : Response) : ResponseWord :=
  match r with
  | .okBlock c => packStatus (outcomeCode r) 0 (BitVec.ofNat 8 (val c))
  | .okKeys k1 k2 => packStatus (outcomeCode r) (BitVec.ofNat 8 (val k1)) (BitVec.ofNat 8 (val k2))
  | .okLog t => packStatus (outcomeCode r) 0 (BitVec.ofNat 8 t.length)
  | .err _ => packStatus (outcomeCode r) 0 0

/-- An entry word: `label_id[18:14] len[13:10] value[9:0]` (30_encoding.md rule R63). -/
def packEntry (labelId : BitVec 5) (len : BitVec 4) (value : BitVec 10) : ResponseWord := labelId ++ len ++ value

/-- The entry word of a trace entry: the string right-aligned, zero above it (30_encoding.md rule R63). -/
def entryWord (t : TraceEntry) : ResponseWord :=
  packEntry (BitVec.ofNat 5 (labelId t.label)) (BitVec.ofNat 4 t.value.length) (BitVec.ofNat 10 (val t.value))

/-- All the words of a response: the status word, and after a successful LOG the entry words in trace order, index 0
first (30_encoding.md rules R62, R63). -/
def responseWords (r : Response) : List ResponseWord :=
  statusWord r :: match r with
    | .okLog t => t.map entryWord
    | .okBlock _ => []
    | .okKeys _ _ => []
    | .err _ => []

/-- What the bit-level port delivers for the most recent command: nothing when there was none. -/
def State.responseWords (s : State) : List ResponseWord :=
  match s.response with
  | some r => Machine.responseWords r
  | none => []

end Sys2Proof.Machine
end

