-- ==== Sys2Proof/Safety.lean ====
section
/-! DEFINITION. What a state of a run looks like: the terms in which the whole-machine claims are stated
(10_state.md rules R20, R22; 43_commands.md rule R141). -/

namespace Sys2Proof.Machine

/-- Label and length of each entry of a trace that ends in `finalLabel` (10_state.md rule R22). -/
def traceShape (finalLabel : Label) : List (Label × Nat) :=
  [(.afterP10, 10), (.afterLS1, 10), (.k1, 8), (.afterLS2, 10), (.k2, 8), (.afterIP, 8),
   (.round1EP, 8), (.round1XOR, 8), (.round1Sboxes, 4), (.round1P4, 4), (.round1Fk, 4), (.afterRound1, 8),
   (.afterSwap, 8),
   (.round2EP, 8), (.round2XOR, 8), (.round2Sboxes, 4), (.round2P4, 4), (.round2Fk, 4), (.afterRound2, 8),
   (finalLabel, 8)]

/-- The shape of a trace. -/
def shapeOf (t : List TraceEntry) : List (Label × Nat) := t.map fun e => (e.label, e.value.length)

/-- "`TRACE` is either empty (length 0) or has exactly the 20 entries of rule R22" (10_state.md rule R20). -/
def traceOk (t : List TraceEntry) : Prop :=
  t = [] ∨ shapeOf t = traceShape .finalCiphertext ∨ shapeOf t = traceShape .finalPlaintext

/-- The trace is that of a well-formed ENC or DEC under these tables (43_commands.md rules R144, R145, R147). -/
def traceOfBlock (T : Tables) (t : List TraceEntry) : Prop :=
  ∃ b k ks fe, blockOk b ∧ keyOk k ∧
    ((blockParts T encryptOrder b k = .ok (ks, fe) ∧ t = traceOf .finalCiphertext ks fe) ∨
     (blockParts T decryptOrder b k = .ok (ks, fe) ∧ t = traceOf .finalPlaintext ks fe))

/-- The forms of a response (43_commands.md rule R141), with the one error kind a command can answer
(60_exceptions.md rule R192). -/
def responseOk : Response → Prop
  | .okBlock c => blockOk c
  | .okKeys k1 k2 => k1.length = roundKeyW ∧ k2.length = roundKeyW
  | .okLog t => traceOk t
  | .err e => e = .lengthMismatch

/-- The invariant of a run: the instance has a trace that is empty or of a well-formed ENC or DEC under its tables, and a
response, if any, of one of the four forms. (That the tables pass the check is in the type of the configuration.) -/
structure Inv (s : State) : Prop where
  traceEmptyOrBlock : s.trace = [] ∨ traceOfBlock s.config.tables s.trace
  responseFormed : ∀ r, s.response = some r → responseOk r

end Sys2Proof.Machine
end

