-- ==== Sys2Proof/Certificates/Slice0/Obligations.lean ====
section
/-! DEFINITION. The statements for the provers. A docstring names the rule of spec/ the statement follows. Where the
rule is marked there as a decision, as derived, or as general knowledge, the statement's basis is 'derived' and the
docstring names the log entry. -/

open Sys2Proof Sys2Proof.Machine

/-! ## Encoding (the bit positions are the spec's own decisions D3, D4; log 7) -/

/-- 30_encoding.md rules R55 to R58 and R60: every well-formed command has a word, and decoding it gives the command back
with every operand bit. -/
def Obligations.DecodeOfEncodeIsTheCommand : Prop :=
  ∀ i : Instr, i.wf = true → ∃ w, encode i = some w ∧ decode w = i

/-- 30_encoding.md rule R58: encoding a decoded word gives the canonical word, with zeros in the fields the command
ignores and every other bit as it was. -/
def Obligations.EncodeOfDecodeClearsIgnoredFields : Prop :=
  ∀ w : CommandWord, encode (decode w) =
    some (packCommand (opField w) (if opField w = 0 then 0 else keyField w)
      (if opField w = 0 ∨ opField w = 1 then 0 else dataField w))

/-- 30_encoding.md rules R56, R57 and spec/opcode_table.json: match and mask select the command, `key_operand[i]` is word
bit `17 - i` and `block_operand[i]` is word bit `7 - i`. -/
def Obligations.DecodeFollowsTheOpcodeTable : Prop :=
  ∀ w : CommandWord,
    (w &&& 0xC0000#20 = 0x00000#20 → decode w = .log) ∧
    (w &&& 0xC0000#20 = 0x40000#20 → decode w = .ksch (keyOperand w)) ∧
    (w &&& 0xC0000#20 = 0x80000#20 → decode w = .enc (blockOperand w) (keyOperand w)) ∧
    (w &&& 0xC0000#20 = 0xC0000#20 → decode w = .dec (blockOperand w) (keyOperand w)) ∧
    (∀ i, i < 10 → (keyOperand w)[i]? = some (w.getLsbD (17 - i))) ∧
    (∀ i, i < 8 → (blockOperand w)[i]? = some (w.getLsbD (7 - i)))

/-- 30_encoding.md rule R58: two words are the same command exactly when they agree in the opcode and in every field that
the command uses. -/
def Obligations.SameCommandIffUsedFieldsAgree : Prop :=
  ∀ w w' : CommandWord, decode w = decode w' ↔
    (opField w = opField w' ∧ (opField w ≠ 0 → keyField w = keyField w') ∧
      (opField w = 2 ∨ opField w = 3 → dataField w = dataField w'))

/-- 30_encoding.md rules R59, R60: every word decodes to a command with well-formed operands, and a command has a word
exactly when its operands are well-formed. -/
def Obligations.WordsAreTheWellFormedCommands : Prop :=
  (∀ w : CommandWord, (decode w).wf = true) ∧ (∀ i : Instr, encode i = none ↔ i.wf = false)

/-- 30_encoding.md rule R66 and 95_test_vectors.md V29: words written out from the encoding. -/
def Obligations.WorkedWordsDecode : Prop :=
  decode 0b10_1010000010_10110101#20 =
      .enc [true, false, true, true, false, true, false, true]
        [true, false, true, false, false, false, false, false, true, false] ∧
    decode 0b11_1010000010_00011011#20 =
      .dec [false, false, false, true, true, false, true, true]
        [true, false, true, false, false, false, false, false, true, false] ∧
    decode 0b01_1010000010_00000000#20 = .ksch [true, false, true, false, false, false, false, false, true, false] ∧
    decode 0x682FF#20 = .ksch [true, false, true, false, false, false, false, false, true, false] ∧
    decode 0x00000#20 = .log ∧ decode 0x3FFFF#20 = .log

/-! ## Datapath units -/

/-- 40_bitvector_primitives.md rule R77, with its corner cases and its example. -/
def Obligations.SplitKeepsEveryBitOrFails : Prop :=
  (∀ (b : Bitstring) (n : Nat),
    (b.length < n → splitBits b n = .error .invalidSplit) ∧
    (n ≤ b.length → ∃ l r, splitBits b n = .ok (l, r) ∧ l.length = n ∧ r.length = b.length - n ∧ l ++ r = b) ∧
    splitBits b 0 = .ok ([], b) ∧ splitBits b b.length = .ok (b, [])) ∧
  splitBits [false, true, true, true, true, true, false, false] 4 =
    .ok ([false, true, true, true], [true, true, false, false])

/-- 40_bitvector_primitives.md rule R78 (its 1-based positions are the spec's decision D8, log 5): `permute` fails exactly
when an entry is out of range, and otherwise output bit `i` is the input bit that entry `i` names. -/
def Obligations.PermuteSelectsTheNamedPositions : Prop :=
  ∀ (b : Bitstring) (table : PermTable),
    ((∃ p ∈ table, p < 1 ∨ b.length < p) → permute b table = .error .lengthMismatch) ∧
    ((∀ p ∈ table, 1 ≤ p ∧ p ≤ b.length) → ∃ out, permute b table = .ok out ∧ out.length = table.length ∧
      ∀ (i p : Nat), table[i]? = some p → out[i]? = b[p - 1]?)

/-- 40_bitvector_primitives.md rule R79, with its corner cases and its examples. -/
def Obligations.CircularShiftRotatesOrFails : Prop :=
  (∀ (b : Bitstring) (n : Nat),
    (b.length ≤ n → lcs b n = .error .invalidShift) ∧
    (n < b.length → ∃ out, lcs b n = .ok out ∧ out.length = b.length ∧ out = b.drop n ++ b.take n ∧
      ∀ i, i < b.length → out[i]? = b[(i + n) % b.length]?) ∧
    (0 < b.length → lcs b 0 = .ok b) ∧ lcs [] n = .error .invalidShift) ∧
  lcs [true, false, false, false, false] 1 = .ok [false, false, false, false, true] ∧
  lcs [false, false, false, false, true] 2 = .ok [false, false, true, false, false]

/-- 40_bitvector_primitives.md rule R80, with its corner cases and its example. -/
def Obligations.XorIsBitwiseOrFails : Prop :=
  (∀ a b : Bitstring,
    (a.length ≠ b.length → xorBits a b = .error .lengthMismatch) ∧
    (a.length = b.length → ∃ out, xorBits a b = .ok out ∧ out.length = a.length ∧
      ∀ (i : Nat) (x y : Bool), a[i]? = some x → b[i]? = some y → out[i]? = some (if x ≠ y then true else false)) ∧
    xorBits a a = .ok (List.replicate a.length false) ∧
    xorBits a (List.replicate a.length false) = .ok a) ∧
  xorBits [] [] = .ok [] ∧
  xorBits [false, true, true, false, true, false, false, true] [true, false, true, false, false, true, false, false] =
    .ok [true, true, false, false, true, true, false, true]

/-- 40_bitvector_primitives.md rule R86 (marked there as derived from rule R80): the laws of addition modulo 2. -/
def Obligations.XorLaws : Prop :=
  ∀ a b c : Bitstring, a.length = b.length → b.length = c.length →
    xorBits a b = xorBits b a ∧
    (xorBits a b >>= fun x => xorBits x c) = (xorBits b c >>= fun x => xorBits a x) ∧
    xorBits a a = .ok (List.replicate a.length false) ∧
    (xorBits a b >>= fun x => xorBits x b) = .ok a

/-- 40_bitvector_primitives.md rule R87 (marked there as derived from rule R79): two shifts compose to one. -/
def Obligations.CircularShiftsCompose : Prop :=
  ∀ (b : Bitstring) (m n : Nat), m < b.length → n < b.length →
    (lcs b m >>= fun x => lcs x n) = lcs b ((m + n) % b.length)

/-- 40_bitvector_primitives.md rule R84 (the significance of the bits and the error are the spec's decisions D10, D11,
log 5): row from bits 0 and 3, column from bits 1 and 2, the 2-bit entry most significant bit first. -/
def Obligations.SboxReadsRowAndColumn : Prop :=
  ∀ box : SboxTable,
    (sboxOk box = true → ∀ x0 x1 x2 x3 : Bool, ∃ row v y0 y1,
      box[2 * x0.toNat + x3.toNat]? = some row ∧ row[2 * x1.toNat + x2.toNat]? = some v ∧
      sbox box [x0, x1, x2, x3] = .ok [y0, y1] ∧ v = 2 * y0.toNat + y1.toNat) ∧
    (∀ x : Bitstring, x.length ≠ 4 → sbox box x = .error .lengthMismatch)

/-- 40_bitvector_primitives.md rule R82 (marked there as derived from rule R78): the inverse of a table that contains each
position once, entry by entry and as an operation, in both orders; and FP under TABLES_STD. -/
def Obligations.InverseTableUndoesPermute : Prop :=
  (∀ (table : PermTable) (m : Nat), table.length = m → eachOnce table m = true →
    (∀ (i p : Nat), table[i]? = some p → (inverse table)[p - 1]? = some (i + 1)) ∧
    (∀ b : Bitstring, b.length = m →
      (permute b table >>= fun c => permute c (inverse table)) = .ok b ∧
      (permute b (inverse table) >>= fun c => permute c table) = .ok b)) ∧
  tablesStd.fp = [4, 1, 3, 5, 7, 2, 8, 6]

/-! ## Key schedule -/

/-- 41_key_schedule.md rules R100 to R103: where each bit of the key schedule comes from, for every table set. The shifts
of the two halves are by 1 for K1 and by 3 in all for K2, each half on its own; a key that is not 10 bits long fails. -/
def Obligations.KeyScheduleBitByBit : Prop :=
  ∀ (T : Tables) (k : Bitstring),
    (k.length ≠ 10 → keyParts T k = .error .lengthMismatch ∧ keySchedule T k = .error .lengthMismatch) ∧
    (T.ok = true → k.length = 10 → ∃ ks, keyParts T k = .ok ks ∧ keySchedule T k = .ok (ks.k1, ks.k2) ∧
      ks.p.length = 10 ∧ ks.i1.length = 10 ∧ ks.k1.length = 8 ∧ ks.i2.length = 10 ∧ ks.k2.length = 8 ∧
      (∀ (i p : Nat), T.p10[i]? = some p → ks.p[i]? = k[p - 1]?) ∧
      (∀ i, i < 5 →
        ks.i1[i]? = ks.p[(i + 1) % 5]? ∧ ks.i1[5 + i]? = ks.p[5 + (i + 1) % 5]? ∧
        ks.i2[i]? = ks.p[(i + 3) % 5]? ∧ ks.i2[5 + i]? = ks.p[5 + (i + 3) % 5]?) ∧
      (∀ (i p : Nat), T.p8[i]? = some p → ks.k1[i]? = ks.i1[p - 1]? ∧ ks.k2[i]? = ks.i2[p - 1]?)) ∧
    (T.ok = true → ∀ x : Bool, keySchedule T (List.replicate 10 x) = .ok (List.replicate 8 x, List.replicate 8 x))

/-- 41_key_schedule.md rule R105, under TABLES_STD (general knowledge, log 4): the closed form, and distinct keys give
distinct pairs. -/
def Obligations.StandardKeyScheduleClosedForm : Prop :=
  (∀ k1 k2 k3 k4 k5 k6 k7 k8 k9 k10 : Bool, ∃ ks, keyParts tablesStd [k1, k2, k3, k4, k5, k6, k7, k8, k9, k10] = .ok ks ∧
    ks.p = [k3, k5, k2, k7, k4, k10, k1, k9, k8, k6] ∧
    ks.i1 = [k5, k2, k7, k4, k3, k1, k9, k8, k6, k10] ∧
    ks.k1 = [k1, k7, k9, k4, k8, k3, k10, k6] ∧
    ks.i2 = [k7, k4, k3, k5, k2, k8, k6, k10, k1, k9] ∧
    ks.k2 = [k8, k3, k6, k5, k10, k2, k9, k1]) ∧
  (∀ k k' : Bitstring, keyOk k → keyOk k' → keySchedule tablesStd k = keySchedule tablesStd k' → k = k')

/-- 41_key_schedule.md rule R106, under TABLES_STD (general knowledge, log 4): the eight keys with K1 = K2, which are the
keys for which ENC and DEC are the same function of the block. -/
def Obligations.StandardEqualRoundKeysAreEight : Prop :=
  ∀ k : Bitstring, keyOk k →
    ((∃ r, keySchedule tablesStd k = .ok (r, r)) ↔
      k ∈ [0b0000000000, 0b0001100000, 0b0110001000, 0b0111101000, 0b1000010111, 0b1001110111, 0b1110011111,
        0b1111111111].map (bits 10)) ∧
    ((∃ r, keySchedule tablesStd k = .ok (r, r)) ↔
      ∀ b : Bitstring, blockOk b → encryptBlock tablesStd b k = decryptBlock tablesStd b k)

/-! ## Feistel processor -/

/-- 42_feistel_datapath.md rule R117: where each bit of the keyed function comes from, for every table set. -/
def Obligations.KeyedFunctionBitByBit : Prop :=
  ∀ (T : Tables) (r k : Bitstring), T.ok = true →
    (k.length ≠ 8 → fParts T r k = .error .lengthMismatch) ∧
    (r.length = 4 → k.length = 8 → ∃ f sa sb, fParts T r k = .ok f ∧ keyedF T r k = .ok f.q ∧
      f.e.length = 8 ∧ f.x.length = 8 ∧ f.s.length = 4 ∧ f.q.length = 4 ∧
      (∀ (i p : Nat), T.ep[i]? = some p → f.e[i]? = r[p - 1]?) ∧
      xorBits f.e k = .ok f.x ∧
      sbox T.s0 (f.x.take 4) = .ok sa ∧ sbox T.s1 (f.x.drop 4) = .ok sb ∧ f.s = sa ++ sb ∧
      (∀ (i p : Nat), T.p4[i]? = some p → f.q[i]? = f.s[p - 1]?))

/-- 42_feistel_datapath.md rules R118, R119, for every table set: the left half is replaced by `fk`, the right half
passes through. The rules' examples, which are values under TABLES_STD, are tests. -/
def Obligations.RoundReplacesTheLeftHalf : Prop :=
  ∀ (T : Tables) (l r k : Bitstring), T.ok = true → l.length = 4 → r.length = 4 → k.length = 8 →
    ∃ q f, keyedF T r k = .ok q ∧ xorBits q l = .ok f ∧ fk T l r k = .ok f ∧ f.length = 4 ∧
      fk T f r k = .ok l ∧ feistelRound T (l ++ r) k = .ok (f ++ r)

/-- 42_feistel_datapath.md rule R120: the swap exchanges the halves, undoes itself, and is applied once, between the
rounds, not after round 2. -/
def Obligations.SwapOnceBetweenTheRounds : Prop :=
  (∀ t : Bitstring, t.length = 8 → ∃ a c, splitBits t 4 = .ok (a, c) ∧ swapHalves t = .ok (c ++ a) ∧
    swapHalves (c ++ a) = .ok t) ∧
  (∀ (T : Tables) (b ka kb : Bitstring), T.ok = true → b.length = 8 → ka.length = 8 → kb.length = 8 →
    feistel T b ka kb = (do
      let ip ← permute b T.ip
      let st1 ← feistelRound T ip ka
      let sw ← swapHalves st1
      let st2 ← feistelRound T sw kb
      permute st2 T.fp)) ∧
  swapHalves (bits 8 0b11111100) = .ok (bits 8 0b11001111)

/-- 42_feistel_datapath.md rule R121 (marked there as derived): a round is its own inverse, for every table set. -/
def Obligations.RoundIsItsOwnInverse : Prop :=
  ∀ (T : Tables) (t k : Bitstring), T.ok = true → t.length = 8 → k.length = 8 →
    (feistelRound T t k >>= fun u => feistelRound T u k) = .ok t

/-- 42_feistel_datapath.md rule R126 (marked there as derived): the block transform is inverted by reversing the round
keys, for every table set. -/
def Obligations.FeistelInvertedByReversedKeys : Prop :=
  ∀ (T : Tables) (b ka kb : Bitstring), T.ok = true → b.length = 8 → ka.length = 8 → kb.length = 8 →
    (feistel T b ka kb >>= fun c => feistel T c kb ka) = .ok b

/-- 42_feistel_datapath.md rule R127 (marked there as derived): for fixed round keys the block transform is a bijection on
the blocks. -/
def Obligations.FeistelIsBijective : Prop :=
  ∀ (T : Tables) (ka kb : Bitstring), T.ok = true → ka.length = 8 → kb.length = 8 →
    (∀ b, blockOk b → ∃ c, blockOk c ∧ feistel T b ka kb = .ok c) ∧
    (∀ c, blockOk c → ∃ b, blockOk b ∧ feistel T b ka kb = .ok c ∧
      ∀ b', blockOk b' → feistel T b' ka kb = .ok c → b' = b)

/-- 42_feistel_datapath.md rules R122, R123, under TABLES_STD (general knowledge, log 4): the closed forms. -/
def Obligations.StandardPermutationsClosedForm : Prop :=
  (∀ b1 b2 b3 b4 b5 b6 b7 b8 : Bool,
    permute [b1, b2, b3, b4, b5, b6, b7, b8] tablesStd.ip = .ok [b2, b6, b3, b1, b4, b8, b5, b7] ∧
    permute [b1, b2, b3, b4, b5, b6, b7, b8] tablesStd.fp = .ok [b4, b1, b3, b5, b7, b2, b8, b6]) ∧
  (∀ n1 n2 n3 n4 : Bool,
    permute [n1, n2, n3, n4] tablesStd.ep = .ok [n4, n1, n2, n3, n2, n3, n4, n1] ∧
    permute [n1, n2, n3, n4] tablesStd.p4 = .ok [n2, n4, n3, n1])

/-! ## The commands -/

/-- 43_commands.md rule R145 (the trace's entries are the spec's decision D13, log 6): ENC on well-formed operands runs,
answers the block with K1 in round 1 and K2 in round 2, and writes the trace; nothing else changes. -/
def Obligations.EncRunsAndAnswersTheBlock : Prop :=
  ∀ (b k : Bitstring) (s : State), blockOk b → keyOk k →
    ∃ ks fe, keyParts s.config.tables k = .ok ks ∧ feistelParts s.config.tables b ks.k1 ks.k2 = .ok fe ∧
      encryptBlock s.config.tables b k = .ok fe.out ∧ blockOk fe.out ∧
      exec (.enc b k) s =
        .next { s with trace := traceOf .finalCiphertext ks fe, response := some (.okBlock fe.out) }

/-- 43_commands.md rule R147 (the trace's entries and the last label are the spec's decisions D13, D15, log 6): DEC on
well-formed operands runs, answers the block with K2 in round 1 and K1 in round 2, and writes the trace; nothing else
changes. -/
def Obligations.DecRunsAndAnswersTheBlock : Prop :=
  ∀ (b k : Bitstring) (s : State), blockOk b → keyOk k →
    ∃ ks fe, keyParts s.config.tables k = .ok ks ∧ feistelParts s.config.tables b ks.k2 ks.k1 = .ok fe ∧
      decryptBlock s.config.tables b k = .ok fe.out ∧ blockOk fe.out ∧
      exec (.dec b k) s =
        .next { s with trace := traceOf .finalPlaintext ks fe, response := some (.okBlock fe.out) }

/-- 43_commands.md rule R143 (the command is the spec's decision D2, that it leaves the trace is D17, log 7): KSCH on a
10-bit key runs and answers the round keys; nothing else changes. -/
def Obligations.KschRunsAndAnswersTheRoundKeys : Prop :=
  ∀ (k : Bitstring) (s : State), keyOk k →
    ∃ k1 k2, keySchedule s.config.tables k = .ok (k1, k2) ∧ k1.length = 8 ∧ k2.length = 8 ∧
      exec (.ksch k) s = .next { s with response := some (.okKeys k1 k2) }

/-- 43_commands.md rule R152: LOG runs in every state, answers the trace as it stands and changes nothing else, so a
second LOG answers the same; after reset it answers the empty trace (the spec's decision D16, log 6). -/
def Obligations.LogRunsAndAnswersTheTrace : Prop :=
  (∀ s : State, exec .log s = .next { s with response := some (.okLog s.trace) } ∧
    ∀ t, exec .log s = .next t → exec .log t = .next t) ∧
  exec .log State.reset = .next { State.reset with response := some (.okLog []) }

/-- 43_commands.md rules R142, R150 and 60_exceptions.md rule R196 (the spec's decisions D18, D19, log 8): a command with
a malformed operand answers the one error, a rejected KSCH leaves the trace, and a rejected ENC or DEC leaves it or
empties it as the parameter says; nothing else changes. -/
def Obligations.MalformedOperandsAreRejected : Prop :=
  ∀ s : State,
    (∀ k, ¬ keyOk k → exec (.ksch k) s = .next { s with response := some (.err .lengthMismatch) }) ∧
    (∀ b k, ¬ (blockOk b ∧ keyOk k) → s.config.traceOnReject = .keep →
      exec (.enc b k) s = .next { s with response := some (.err .lengthMismatch) } ∧
      exec (.dec b k) s = .next { s with response := some (.err .lengthMismatch) }) ∧
    (∀ b k, ¬ (blockOk b ∧ keyOk k) → s.config.traceOnReject = .clear →
      exec (.enc b k) s = .next { s with trace := [], response := some (.err .lengthMismatch) } ∧
      exec (.dec b k) s = .next { s with trace := [], response := some (.err .lengthMismatch) })

/-- 60_exceptions.md rule R192 (marked there as derived): a command answers an error exactly when an operand is malformed,
the error is LengthMismatch, and no command word is ever answered by an error. -/
def Obligations.OnlyLengthMismatchIsReachable : Prop :=
  (∀ (i : Instr) (s : State), ∃ t r, exec i s = .next t ∧ t.response = some r ∧
    ((∃ e, r = .err e) ↔ i.wf = false) ∧ ∀ e, r = .err e → e = .lengthMismatch) ∧
  (∀ (w : CommandWord) (s : State), ∃ t r, step (s.send (.word w)) = .next t ∧
    t.response = some r ∧ ∀ e, r ≠ .err e)

/-- 10_state.md rules R23, R31 and 00_scope.md rule R6 (KSCH leaving the trace is the spec's decision D17, log 7): the
frame of every command. No command writes the configuration or takes anything the host is going to send, and LOG and
KSCH leave the trace. -/
def Obligations.CommandsLeaveTheRestAlone : Prop :=
  ∀ (i : Instr) (s t : State), exec i s = .next t →
    t.config = s.config ∧ t.pending = s.pending ∧ ((i = .log ∨ ∃ k, i = .ksch k) → t.trace = s.trace)

/-- 00_scope.md rule R16: the response of KSCH, ENC and DEC depends on the operands and the tables only, not on the state,
earlier commands or the instance; only LOG's response depends on the state, and it does so wherever the traces differ. -/
def Obligations.OnlyLogDependsOnTheState : Prop :=
  (∀ (i : Instr) (s s' t t' : State), i ≠ .log → s.config.tables = s'.config.tables →
    exec i s = .next t → exec i s' = .next t' → t.response = t'.response) ∧
  (∀ s s' t t' : State, exec .log s = .next t → exec .log s' = .next t' →
    (t.response = t'.response ↔ s.trace = s'.trace))

/-- 70_reset_and_hazards.md rule R213 and 10_state.md rule R20: the trace is a single slot. The trace that a well-formed
ENC or DEC leaves does not depend on the one it found. (That it has 20 entries is the spec's decision D13, log 6.) -/
def Obligations.NextBlockCommandDestroysTheTrace : Prop :=
  ∀ (b k : Bitstring) (s s' : State), s.config.tables = s'.config.tables → blockOk b → keyOk k →
    (∃ t t', exec (.enc b k) s = .next t ∧ exec (.enc b k) s' = .next t' ∧ t.trace = t'.trace ∧ t.trace.length = 20) ∧
    (∃ t t', exec (.dec b k) s = .next t ∧ exec (.dec b k) s' = .next t' ∧ t.trace = t'.trace ∧ t.trace.length = 20)

/-- 00_scope.md rule R17: decrypting what was encrypted under the same key gives the plaintext, on the functions and on
the machine, for every table set, on the same instance or another, whatever happened in between. -/
def Obligations.DecOfEncIsThePlaintext : Prop :=
  (∀ (T : Tables) (b k : Bitstring), T.ok = true → blockOk b → keyOk k →
    (encryptBlock T b k >>= fun c => decryptBlock T c k) = .ok b) ∧
  (∀ (b k : Bitstring) (s s' : State), s'.config.tables = s.config.tables →
    blockOk b → keyOk k →
    ∃ c t t', exec (.enc b k) s = .next t ∧ t.response = some (.okBlock c) ∧
      exec (.dec c k) s' = .next t' ∧ t'.response = some (.okBlock b))

/-- 42_feistel_datapath.md rule R131 and 43_commands.md rule R148 (marked there as derived): the same with ENC and DEC
exchanged. -/
def Obligations.EncOfDecIsTheCiphertext : Prop :=
  ∀ (b k : Bitstring) (s s' : State), s'.config.tables = s.config.tables →
    blockOk b → keyOk k →
    ∃ c t t', exec (.dec b k) s = .next t ∧ t.response = some (.okBlock c) ∧
      exec (.enc c k) s' = .next t' ∧ t'.response = some (.okBlock b)

/-- 43_commands.md rule R148 (marked there as derived): when K1 = K2, ENC and DEC answer the same block and leave the same
trace but for the last label. -/
def Obligations.EqualRoundKeysMakeEncAndDecAgree : Prop :=
  ∀ (b k r : Bitstring) (s : State), blockOk b → keyOk k →
    keySchedule s.config.tables k = .ok (r, r) →
    ∃ t t' before c, exec (.enc b k) s = .next t ∧ exec (.dec b k) s = .next t' ∧
      t.response = some (.okBlock c) ∧ t'.response = some (.okBlock c) ∧
      t.trace = before ++ [⟨.finalCiphertext, c⟩] ∧ t'.trace = before ++ [⟨.finalPlaintext, c⟩]

/-- 20_memory.md rule R45 (marked there as derived): every command is idempotent, in its response and in its effect. -/
def Obligations.RepeatedCommandChangesNothing : Prop :=
  ∀ (i : Instr) (s t : State), exec i s = .next t → exec i t = .next t

/-- 43_commands.md rule R143, corner cases (the spec's decision D2, log 7): KSCH answers entries 2 and 4 of the trace that
ENC or DEC with the same key leaves, for any block. -/
def Obligations.KschAgreesWithTheTrace : Prop :=
  ∀ (b k : Bitstring) (s : State), blockOk b → keyOk k →
    ∃ k1 k2 t u v, exec (.ksch k) s = .next t ∧ t.response = some (.okKeys k1 k2) ∧
      exec (.enc b k) s = .next u ∧ u.trace[2]? = some ⟨.k1, k1⟩ ∧ u.trace[4]? = some ⟨.k2, k2⟩ ∧
      exec (.dec b k) s = .next v ∧ v.trace[2]? = some ⟨.k1, k1⟩ ∧ v.trace[4]? = some ⟨.k2, k2⟩

/-- 10_state.md rule R22 and 43_commands.md rule R144 (the entries are the spec's decisions D13, D14, D15, log 6): the
trace of ENC and of DEC, entry by entry, each value from the values before it. `ka` is the round key of round 1 and `kb`
that of round 2: K1 and K2 for ENC, K2 and K1 for DEC. -/
def Obligations.TraceRecordsEveryStep : Prop :=
  ∀ (b k : Bitstring) (s : State), blockOk b → keyOk k →
    ∃ ks, keyParts s.config.tables k = .ok ks ∧
      ∀ i lab ka kb, (i, lab, ka, kb) = (Instr.enc b k, Label.finalCiphertext, ks.k1, ks.k2) ∨
          (i, lab, ka, kb) = (Instr.dec b k, Label.finalPlaintext, ks.k2, ks.k1) →
        ∃ t ip l1 r1 f f1 g f2 out,
          exec i s = .next t ∧
          permute b s.config.tables.ip = .ok ip ∧ splitBits ip 4 = .ok (l1, r1) ∧
          fParts s.config.tables r1 ka = .ok f ∧ fk s.config.tables l1 r1 ka = .ok f1 ∧
          fParts s.config.tables f1 kb = .ok g ∧ fk s.config.tables r1 f1 kb = .ok f2 ∧
          permute (f2 ++ f1) s.config.tables.fp = .ok out ∧
          xorBits f.e ka = .ok f.x ∧ xorBits g.e kb = .ok g.x ∧
          t.trace =
            [⟨.afterP10, ks.p⟩, ⟨.afterLS1, ks.i1⟩, ⟨.k1, ks.k1⟩, ⟨.afterLS2, ks.i2⟩, ⟨.k2, ks.k2⟩, ⟨.afterIP, ip⟩,
             ⟨.round1EP, f.e⟩, ⟨.round1XOR, f.x⟩, ⟨.round1Sboxes, f.s⟩, ⟨.round1P4, f.q⟩, ⟨.round1Fk, f1⟩,
             ⟨.afterRound1, f1 ++ r1⟩, ⟨.afterSwap, r1 ++ f1⟩,
             ⟨.round2EP, g.e⟩, ⟨.round2XOR, g.x⟩, ⟨.round2Sboxes, g.s⟩, ⟨.round2P4, g.q⟩, ⟨.round2Fk, f2⟩,
             ⟨.afterRound2, f2 ++ f1⟩, ⟨lab, out⟩]

/-! ## The machine -/

/-- 43_commands.md rule R140 and 20_memory.md rule R49 (the interface is the spec's decision D1, log 1): a step takes the
next thing the host sends. For a command word it is exec of the decoded command, for an abstract command exec of that
command, each on the state without it; nothing is done around exec. -/
def Obligations.StepRunsTheNextCommand : Prop :=
  ∀ (s : State) (rest : List HostEvent),
    (∀ w, s.pending = .word w :: rest → step s = exec (decode w) { s with pending := rest }) ∧
    (∀ i, s.pending = .command i :: rest → step s = exec i { s with pending := rest })

/-- 70_reset_and_hazards.md rules R210, R211, R218 (the spec's decisions D16, D23; log 2, log 9): the reset event empties
the trace and answers nothing, and with nothing sent a step changes nothing. -/
def Obligations.ResetEventEmptiesTheTrace : Prop :=
  ∀ s : State,
    (∀ rest, s.pending = .reset :: rest → step s = .next { s with pending := rest, trace := [], response := none }) ∧
    (s.pending = [] → step s = .next s)

/-- 40_bitvector_primitives.md rule R81 (marked there as derived; log 3): a core is built from exactly the table sets that
pass the check, with that set and parameter and in its reset state; no state of the machine has another. The reset state
is 70_reset_and_hazards.md rules R210, R211: that the trace is empty is the spec's decision D16 (log 6), that nothing is
pending (log 1) and there is no response (log 2) are the model's choices for its own fields. -/
def Obligations.BadTablesAreRefused : Prop :=
  (∀ (T : Tables) (onReject : TraceOnReject),
    (T.ok = false → State.build T onReject = .error .tablesNotOk) ∧
    (T.ok = true → ∃ s, State.build T onReject = .ok s ∧ s.config.tables = T ∧ s.config.traceOnReject = onReject ∧
      s.trace = [] ∧ s.pending = [] ∧ s.response = none)) ∧
  (∀ s : State, s.config.tables.ok = true)

/-- 43_commands.md rule R140 and 00_scope.md rule R6: every step completes, and it leaves the configuration, the tables
among it, as it was. -/
def Obligations.StepCompletesAndKeepsTheTables : Prop :=
  ∀ s : State, ∃ t, step s = .next t ∧ t.config = s.config

/-- 10_state.md rules R20, R22 and 43_commands.md rules R141, R150 (the trace's entries are the spec's decision D13,
log 6): every step keeps the invariant, so the trace is always empty or that of a well-formed ENC or DEC, and never a
partial one. -/
def Obligations.StepKeepsTheInvariant : Prop :=
  ∀ s t : State, Inv s → step s = .next t → Inv t

/-- 10_state.md rule R32 and 70_reset_and_hazards.md rule R210 (the spec's decision D16, log 6): the reset state has the
empty trace and meets the invariant. -/
def Obligations.ResetMeetsTheInvariant : Prop :=
  State.reset.trace = [] ∧ Inv State.reset

/-- 10_state.md rule R20 (marked there as derived): in every state that meets the invariant the trace has length 0 or has
the 20 entries of rule R22, with their labels and lengths. -/
def Obligations.TraceIsEmptyOrHasTwentyEntries : Prop :=
  ∀ s : State, Inv s → traceOk s.trace ∧ (s.trace.length = 0 ∨ s.trace.length = 20)

/-! ## Response words (the bit positions are the spec's own decisions D5, D6; log 7) -/

/-- 30_encoding.md rule R62 and 60_exceptions.md rule R186: the fields of the status word of every response a command can
give, and the number of words of the response. -/
def Obligations.StatusWordCarriesTheResponse : Prop :=
  ∀ r : Response, responseOk r → ∃ code hi lo, statusWord r = packStatus code hi lo ∧
    (statusWord r).extractLsb' 16 3 = code ∧ (statusWord r).extractLsb' 8 8 = hi ∧ (statusWord r).extractLsb' 0 8 = lo ∧
    (∀ c, r = .okBlock c → code = 0 ∧ hi = 0 ∧ bits 8 lo.toNat = c ∧ responseWords r = [statusWord r]) ∧
    (∀ k1 k2, r = .okKeys k1 k2 →
      code = 0 ∧ bits 8 hi.toNat = k1 ∧ bits 8 lo.toNat = k2 ∧ responseWords r = [statusWord r]) ∧
    (∀ t, r = .okLog t →
      code = 0 ∧ hi = 0 ∧ lo.toNat = t.length ∧ responseWords r = statusWord r :: t.map entryWord) ∧
    (∀ e, r = .err e → code = 1 ∧ hi = 0 ∧ lo = 0 ∧ responseWords r = [statusWord r])

/-- 30_encoding.md rule R63: an entry word carries the label's number, the length, and the string right-aligned with zeros
above it; the numbers of the labels are distinct and at most 20. So it determines the entry. -/
def Obligations.EntryWordCarriesTheEntry : Prop :=
  (∀ e : TraceEntry, e.value.length = 4 ∨ e.value.length = 8 ∨ e.value.length = 10 →
    ((entryWord e).extractLsb' 14 5).toNat = labelId e.label ∧
    ((entryWord e).extractLsb' 10 4).toNat = e.value.length ∧
    ((entryWord e).extractLsb' 0 10).toNat = val e.value ∧
    bits e.value.length ((entryWord e).extractLsb' 0 10).toNat = e.value ∧
    (∀ i, e.value.length ≤ i → i < 10 → (entryWord e).getLsbD i = false)) ∧
  (∀ l l' : Label, labelId l = labelId l' → l = l') ∧ (∀ l : Label, labelId l ≤ 20)

/-! ## Several instances -/

/-- 20_memory.md rule R50 and 60_exceptions.md rule R203 (log 14): a step of one instance leaves every other as it was and
gives that one its own next state, and any two orders in which the instances take the same steps end in the same
platform. -/
def Obligations.InstancesDoNotInteract : Prop :=
  (∀ (p : Platform) (n m : Nat), m ≠ n → (p.advance n).instances[m]? = p.instances[m]?) ∧
  (∀ (p : Platform) (n : Nat) (i : InstanceState) (t : State), p.instances[n]? = some i → step (i.on p.config) = .next t →
    ∃ j, (p.advance n).instances[n]? = some j ∧ j.on (p.advance n).config = t) ∧
  (∀ (p : Platform) (one other : List Nat), one.Perm other → p.run one = p.run other)

/-! ## Text form (the spec's own decision D28, log 16) -/

/-- 30_encoding.md rule R64: the textual form of a command, for operands of any length, is read back as that command. -/
def Obligations.RenderedCommandIsReadBack : Prop :=
  ∀ i : Instr, parseLine (render i) = .ok (some i)

/-! ## Host procedures -/

/-- 45_host_procedures.md rules R166, R168, R169 (the bit order is the spec's decision D24, log 10): for every text over
the supported characters and every key, encrypting gives one block per character, and decrypting the blocks, on this or
any instance with the same tables, gives the text back. -/
def Obligations.TextRoundTrip : Prop :=
  ∀ (text : List Nat) (k : Bitstring) (s s' : State), s'.config.tables = s.config.tables → keyOk k → (∀ cp ∈ text, cp ≤ 255) →
    ∃ blocks u u', encryptAsciiToBlocks text k s = (.ok blocks, u) ∧ blocks.length = text.length ∧
      (∀ b ∈ blocks, blockOk b) ∧ decryptBlocksToAscii blocks k s' = (.ok text, u')

/-- 45_host_procedures.md rule R166 (that the check is made character by character is the spec's decision D25, log 10): a
character that does not fit in 8 bits stops the procedure, with the instance as the characters before it left it. -/
def Obligations.UnsupportedCharacterStopsTheText : Prop :=
  ∀ (before after : List Nat) (cp : Nat) (k : Bitstring) (s : State), keyOk k →
    (∀ c ∈ before, c ≤ 255) → 255 < cp →
    ∃ blocks u, encryptAsciiToBlocks before k s = (.ok blocks, u) ∧
      encryptAsciiToBlocks (before ++ cp :: after) k s = (.error (.error .unsupportedCharacter), u)

/-- 45_host_procedures.md rules R170 to R173, R179: for every division of the keyspace into shards that cover it, and every
platform with an instance per worker, the search returns exactly the keys that encrypt every pair's plaintext to its
ciphertext. So the result does not depend on the shards, the order in which a worker tries its keys, the workers, the
traces the instances hold, or on whether a worker leaves out the later pairs of a failed key (log 13). -/
def Obligations.SearchFindsExactlyTheKeys : Prop :=
  ∀ (stopEarly : Bool) (pairs : List (Bitstring × Bitstring)) (shards : List (List Nat)) (p : Platform),
    shards.length ≤ p.instances.length → (∀ pc ∈ pairs, blockOk pc.1) → (∀ n, n < 1024 → ∃ sh ∈ shards, n ∈ sh) →
    (searchShards stopEarly pairs shards p).1 =
      .ok (((List.range 1024).filter fun n =>
        pairs.all fun pc => decide (encryptBlock p.config.tables pc.1 (keyOfNumber n) = .ok pc.2)).map keyOfNumber)

/-- 45_host_procedures.md rules R172, R173 (the bounds of a contiguous shard are the model's choice, log 13): for every
positive number of workers, sequential or parallel, contiguous or striped, each key number is in exactly one shard, and
a shard holds nothing else. -/
def Obligations.ShardsPartitionTheKeyspace : Prop :=
  ∀ plan : SearchPlan, 0 < plan.workerCount →
    plan.shards.length = plan.workerCount ∧
    (∀ n, n < 1024 → ∃ j : Nat, (∃ sh : List Nat, plan.shards[j]? = some sh ∧ n ∈ sh) ∧
      ∀ (j' : Nat) (sh' : List Nat), plan.shards[j']? = some sh' → n ∈ sh' → j' = j) ∧
    (∀ sh ∈ plan.shards, ∀ n ∈ sh, n < 1024)

/-- 45_host_procedures.md rules R175 to R177: the collision map of a well-formed plaintext has an entry for exactly the
ciphertexts some key produces, each once, under it exactly the keys that produce it in increasing key order; the lengths
of its lists add up to 1024. The order of the keys rests on their numbering, the spec's decision D24 (log 10). -/
def Obligations.CollisionMapIsComplete : Prop :=
  ∀ (p : Bitstring) (s : State), blockOk p →
    ∃ m u, analyzeCollisions p s = (.ok m, u) ∧
      (m.map Prod.fst).Nodup ∧
      (∀ c keys, (c, keys) ∈ m → keys ≠ [] ∧ keys =
        ((List.range 1024).filter fun n =>
          decide (encryptBlock s.config.tables p (keyOfNumber n) = .ok c)).map keyOfNumber) ∧
      (∀ n c, n < 1024 → encryptBlock s.config.tables p (keyOfNumber n) = .ok c → c ∈ m.map Prod.fst) ∧
      (m.map fun e => e.2.length).sum = 1024

/-! ## Building a platform -/

/-- 60_exceptions.md rule R203 and 00_scope.md rule R8 (log 14): a platform of `n` instances is built exactly for `n >= 1`,
its instances are identical (one configuration) and each starts in the reset state; a run changes neither the
configuration nor the number of instances, which is at least 1. The reset state is 70_reset_and_hazards.md rule R210: the
empty trace is the spec's decision D16 (log 6), the values of the model's own fields are logs 1 and 2. -/
def Obligations.PlatformsAreIdenticalInstances : Prop :=
  (∀ c : Config, Platform.build c 0 = none) ∧
  (∀ (c : Config) (n : Nat), 0 < n → ∃ p, Platform.build c n = some p ∧ p.config = c ∧ p.instances.length = n ∧
    ∀ i ∈ p.instances, i.on p.config = State.ofConfig c) ∧
  (∀ (p : Platform) (schedule : List Nat), (p.run schedule).config = p.config ∧
    (p.run schedule).instances.length = p.instances.length ∧ 0 < (p.run schedule).instances.length)
end

