-- ==== Sys2Proof/Laws/Bits.lean ====
section
/-! SUPPORT. Bitstrings as numbers, and the fields of a command word. -/

namespace Sys2Proof

@[simp] theorem length_bits (n v : Nat) : (bits n v).length = n := by
  induction n with
  | zero => rfl
  | succ n ih => simp [bits, ih]

theorem val_lt (b : Bitstring) : val b < 2 ^ b.length := by
  induction b with
  | nil => simp [val]
  | cons x rest ih =>
    cases x <;> simp only [val, List.length_cons, Bool.toNat_true, Bool.toNat_false, Nat.pow_succ] <;> omega

/-- `bits_n` looks only at the `n` low bits. -/
theorem bits_mod (n m v : Nat) (h : n ≤ m) : bits n (v % 2 ^ m) = bits n v := by
  induction n with
  | zero => rfl
  | succ n ih => simp [bits, ih (by omega), Nat.testBit_mod_two_pow, show n < m by omega]

@[simp] theorem bits_val (b : Bitstring) : bits b.length (val b) = b := by
  induction b with
  | nil => rfl
  | cons x rest ih =>
    have hlt := val_lt rest
    have hbit : (x.toNat * 2 ^ rest.length + val rest).testBit rest.length = x := by
      rw [Nat.testBit_eq_decide_div_mod_eq, Nat.mul_comm, Nat.mul_add_div (by positivity), Nat.div_eq_of_lt hlt]
      cases x <;> rfl
    have htail : bits rest.length (x.toNat * 2 ^ rest.length + val rest) = rest := by
      rw [← bits_mod rest.length rest.length _ (le_refl _), Nat.mul_comm, Nat.mul_add_mod, Nat.mod_eq_of_lt hlt, ih]
    simp [val, bits, hbit, htail]

theorem bits_val_of_length {n : Nat} {b : Bitstring} (h : b.length = n) : bits n (val b) = b := by
  subst h; exact bits_val b

theorem val_bits (n v : Nat) : val (bits n v) = v % 2 ^ n := by
  induction n with
  | zero => simp [bits, val, Nat.mod_one]
  | succ n ih =>
    have hsplit : v % 2 ^ (n + 1) = v % 2 ^ n + 2 ^ n * (v / 2 ^ n % 2) := Nat.mod_pow_succ
    rw [bits, val, length_bits, ih, hsplit, Nat.testBit_eq_decide_div_mod_eq]
    rcases Nat.mod_two_eq_zero_or_one (v / 2 ^ n) with h | h <;> simp [h, Nat.add_comm]

theorem getElem?_bits (n v i : Nat) (h : i < n) : (bits n v)[i]? = some (v.testBit (n - 1 - i)) := by
  induction n generalizing i with
  | zero => omega
  | succ n ih =>
    cases i with
    | zero => simp [bits]
    | succ i =>
      have := ih i (by omega)
      simp only [bits, List.getElem?_cons_succ, this]
      congr 2; omega

@[simp] theorem opField_packCommand (op : BitVec 2) (key : BitVec 10) (data : BitVec 8) :
    opField (packCommand op key data) = op := by
  apply BitVec.eq_of_toNat_eq
  simp only [opField, packCommand, BitVec.extractLsb'_toNat, BitVec.toNat_append]
  have := op.isLt; have := key.isLt; have := data.isLt
  simp only [Nat.shiftLeft_eq, Nat.shiftRight_eq_div_pow]
  rw [← Nat.shiftLeft_eq, ← Nat.shiftLeft_eq, ← Nat.shiftLeft_add_eq_or_of_lt (by omega), Nat.shiftLeft_eq,
    ← Nat.shiftLeft_add_eq_or_of_lt (by omega), Nat.shiftLeft_eq]
  omega

@[simp] theorem keyField_packCommand (op : BitVec 2) (key : BitVec 10) (data : BitVec 8) :
    keyField (packCommand op key data) = key := by
  apply BitVec.eq_of_toNat_eq
  simp only [keyField, packCommand, BitVec.extractLsb'_toNat, BitVec.toNat_append]
  have := op.isLt; have := key.isLt; have := data.isLt
  rw [← Nat.shiftLeft_add_eq_or_of_lt (by omega), Nat.shiftLeft_eq,
    ← Nat.shiftLeft_add_eq_or_of_lt (by omega), Nat.shiftLeft_eq, Nat.shiftRight_eq_div_pow]
  omega

@[simp] theorem dataField_packCommand (op : BitVec 2) (key : BitVec 10) (data : BitVec 8) :
    dataField (packCommand op key data) = data := by
  apply BitVec.eq_of_toNat_eq
  simp only [dataField, packCommand, BitVec.extractLsb'_toNat, BitVec.toNat_append]
  have := op.isLt; have := key.isLt; have := data.isLt
  rw [← Nat.shiftLeft_add_eq_or_of_lt (by omega), Nat.shiftLeft_eq,
    ← Nat.shiftLeft_add_eq_or_of_lt (by omega), Nat.shiftLeft_eq, Nat.shiftRight_eq_div_pow]
  omega

/-- A command word is its three fields. -/
theorem packCommand_fields (w : CommandWord) : packCommand (opField w) (keyField w) (dataField w) = w := by
  apply BitVec.eq_of_toNat_eq
  have hw := w.isLt
  simp only [opField, keyField, dataField, packCommand, BitVec.toNat_append, BitVec.extractLsb'_toNat]
  rw [← Nat.shiftLeft_add_eq_or_of_lt (by omega), Nat.shiftLeft_eq,
    ← Nat.shiftLeft_add_eq_or_of_lt (by omega), Nat.shiftLeft_eq, Nat.shiftRight_eq_div_pow, Nat.shiftRight_eq_div_pow]
  omega

@[simp] theorem length_keyOperand (w : CommandWord) : (keyOperand w).length = keyW := length_bits _ _
@[simp] theorem length_blockOperand (w : CommandWord) : (blockOperand w).length = blockW := length_bits _ _

end Sys2Proof
end

