-- ==== Sys2Proof/Laws/Units.lean ====
section
/-! SUPPORT. What each datapath unit answers on the operands CORE gives it (40_bitvector_primitives.md rule R89). -/

namespace Sys2Proof

@[simp] theorem length_selectBits (b : Bitstring) (table : PermTable) : (selectBits b table).length = table.length := by
  simp [selectBits]

theorem tableOk_iff {table : PermTable} {m n : Nat} :
    tableOk table m n = true ↔ table.length = m ∧ ∀ p ∈ table, 1 ≤ p ∧ p ≤ n := by
  simp [tableOk]

/-- When `table_ok(T, m, n)` holds, `permute(b, T)` succeeds for every `b` of length `n` (rule R81). -/
theorem permute_of_tableOk {b : Bitstring} {table : PermTable} {m n : Nat} (ht : tableOk table m n = true)
    (hb : b.length = n) : permute b table = .ok (selectBits b table) := by
  have hall : (table.all fun p => decide (1 ≤ p) && decide (p ≤ b.length)) = true := by
    simpa [hb] using (tableOk_iff.mp ht).2
  simp [permute, hall]

theorem length_select_of_tableOk {b : Bitstring} {table : PermTable} {m n : Nat} (ht : tableOk table m n = true) :
    (selectBits b table).length = m := by
  rw [length_selectBits]; exact (tableOk_iff.mp ht).1

theorem splitBits_of_le {b : Bitstring} {n : Nat} (h : n ≤ b.length) :
    splitBits b n = .ok (b.take n, b.drop n) := by
  simp [splitBits, Nat.not_lt.mpr h]

theorem splitBits_append {a b : Bitstring} {n : Nat} (h : a.length = n) : splitBits (a ++ b) n = .ok (a, b) := by
  subst h; simp [splitBits]

theorem lcs_of_lt {b : Bitstring} {n : Nat} (h : n < b.length) : lcs b n = .ok (b.drop n ++ b.take n) := by
  simp [lcs, Nat.not_le.mpr h]

theorem xorBits_of_length {a b : Bitstring} (h : a.length = b.length) :
    xorBits a b = .ok (List.zipWith Bool.xor a b) := by
  simp [xorBits, h]

/-- `xor(a, xor(a, b)) = b` (rule R86), on the bits. -/
theorem zipWith_xor_cancel {a b : Bitstring} (h : a.length = b.length) :
    List.zipWith Bool.xor a (List.zipWith Bool.xor a b) = b := by
  induction a generalizing b with
  | nil => cases b <;> simp_all
  | cons x a ih =>
    cases b with
    | nil => simp at h
    | cons y b => simp [ih (by simpa using h)]

theorem sbox_of_length {box : SboxTable} {x : Bitstring} (h : x.length = 4) :
    ∃ y, sbox box x = .ok y ∧ y.length = sboxOutW := by
  match x, h with
  | [x0, x1, x2, x3], _ => exact ⟨_, rfl, length_bits _ _⟩

/-- The conjuncts of the check of a table set (rule R81). -/
theorem Tables.ok_parts {T : Tables} (h : T.ok = true) :
    tableOk T.p10 10 10 = true ∧ tableOk T.p8 8 10 = true ∧ tableOk T.ip 8 8 = true ∧ eachOnce T.ip 8 = true ∧
      tableOk T.ep 8 4 = true ∧ tableOk T.p4 4 4 = true ∧ sboxOk T.s0 = true ∧ sboxOk T.s1 = true := by
  simp only [Tables.ok, Bool.and_eq_true] at h
  tauto

theorem count_one_of_eachOnce {table : PermTable} {m j : Nat} (h : eachOnce table m = true) (hj : j < m) :
    table.count (j + 1) = 1 := by
  simp only [eachOnce, List.all_eq_true, List.mem_range, beq_iff_eq] at h
  exact h j hj

@[simp] theorem length_inverse (table : PermTable) : (inverse table).length = table.length := by simp [inverse]

/-- The inverse of a table that contains each position passes the check (rule R82). -/
theorem tableOk_inverse {table : PermTable} {m : Nat} (hl : table.length = m) (h : eachOnce table m = true) :
    tableOk (inverse table) m m = true := by
  rw [tableOk_iff]
  refine ⟨by simp [hl], fun p hp => ?_⟩
  simp only [inverse, List.mem_map, List.mem_range, hl] at hp
  obtain ⟨j, hj, rfl⟩ := hp
  have hmem : j + 1 ∈ table := List.count_pos_iff.mp (by rw [count_one_of_eachOnce h hj]; omega)
  have := List.idxOf_lt_length_of_mem hmem
  omega

theorem tableOk_fp {T : Tables} (h : T.ok = true) : tableOk T.fp 8 8 = true :=
  tableOk_inverse (tableOk_iff.mp (Tables.ok_parts h).2.2.1).1 (Tables.ok_parts h).2.2.2.1

/-- A table of 1-based positions in range, without a length named. -/
theorem permute_of_bounds {b : Bitstring} {table : PermTable} (h : ∀ p ∈ table, 1 ≤ p ∧ p ≤ b.length) :
    permute b table = .ok (selectBits b table) :=
  permute_of_tableOk (tableOk_iff.mpr ⟨rfl, h⟩) rfl

theorem getElem?_selectBits {b : Bitstring} {table : PermTable} (h : ∀ p ∈ table, 1 ≤ p ∧ p ≤ b.length) {i p : Nat}
    (hi : table[i]? = some p) : (selectBits b table)[i]? = b[p - 1]? := by
  have hm := h p (List.mem_of_getElem? hi)
  rw [selectBits, List.getElem?_map, hi]
  have : p - 1 < b.length := by omega
  simp [this]

/-- Bit `i` of a rotated Bitstring. -/
theorem getElem?_rotated {b : Bitstring} {n i : Nat} (hn : n < b.length) (hi : i < b.length) :
    (b.drop n ++ b.take n)[i]? = b[(i + n) % b.length]? := by
  by_cases h : i < b.length - n
  · rw [List.getElem?_append_left (by simpa using h), List.getElem?_drop, Nat.mod_eq_of_lt (by omega), Nat.add_comm]
  · rw [List.getElem?_append_right (by simp; omega), List.getElem?_take, if_pos (by simp; omega)]
    congr 1
    rw [Nat.mod_eq_sub_mod (by omega), Nat.mod_eq_of_lt (by omega)]; simp; omega

theorem zipWith_xor_self (a : Bitstring) : List.zipWith Bool.xor a a = List.replicate a.length false := by
  induction a with
  | nil => rfl
  | cons x a ih => simp [List.replicate_succ]

theorem zipWith_xor_zero (a : Bitstring) : List.zipWith Bool.xor a (List.replicate a.length false) = a := by
  induction a with
  | nil => rfl
  | cons x a ih => simp [ih, List.replicate_succ]

theorem zipWith_xor_assoc (a b c : Bitstring) :
    List.zipWith Bool.xor (List.zipWith Bool.xor a b) c = List.zipWith Bool.xor a (List.zipWith Bool.xor b c) := by
  induction a generalizing b c with
  | nil => simp
  | cons x a ih => cases b <;> cases c <;> simp [ih]

/-- A table that contains each position once is a rearrangement of the positions. -/
theorem perm_of_eachOnce {table : PermTable} {m : Nat} (hl : table.length = m) (h : eachOnce table m = true) :
    ((List.range m).map (· + 1)).Perm table := by
  have hn : ((List.range m).map (· + 1)).Nodup := List.nodup_range.map (fun _ _ => by simp)
  refine (hn.subperm ?_).perm_of_length_le (by simp [hl])
  intro p hp
  simp only [List.mem_map, List.mem_range] at hp
  obtain ⟨j, hj, rfl⟩ := hp
  exact List.count_pos_iff.mp (by rw [count_one_of_eachOnce h hj]; omega)

theorem nodup_of_eachOnce {table : PermTable} {m : Nat} (hl : table.length = m) (h : eachOnce table m = true) :
    table.Nodup := (perm_of_eachOnce hl h).nodup_iff.mp (List.nodup_range.map (fun _ _ => by simp))

theorem getElem?_inverse {table : PermTable} {j : Nat} (h : j < table.length) :
    (inverse table)[j]? = some (table.idxOf (j + 1) + 1) := by simp [inverse, h]

end Sys2Proof
end

