-- ==== Sys2Proof/Laws/KeySchedule.lean ====
section
/-! SUPPORT. The key schedule on a 10-bit key: it answers, with values of the lengths of 10_state.md rule R24. -/

namespace Sys2Proof

/-- The values of the key schedule, without the checks that cannot fail. -/
def keyPartsOf (T : Tables) (k : Bitstring) : KeyParts :=
  let p := selectBits k T.p10
  let l := p.take 5
  let r := p.drop 5
  let l1 := l.drop 1 ++ l.take 1
  let r1 := r.drop 1 ++ r.take 1
  let l2 := l1.drop 2 ++ l1.take 2
  let r2 := r1.drop 2 ++ r1.take 2
  { p, l, r, l1, r1, i1 := l1 ++ r1, k1 := selectBits (l1 ++ r1) T.p8, l2, r2, i2 := l2 ++ r2,
    k2 := selectBits (l2 ++ r2) T.p8 }

theorem keyParts_eq {T : Tables} {k : Bitstring} (hT : T.ok = true) (hk : keyOk k) :
    keyParts T k = .ok (keyPartsOf T k) := by
  obtain ⟨hp10, hp8, -⟩ := Tables.ok_parts hT
  have hk' : k.length = 10 := hk
  have hp : (selectBits k T.p10).length = 10 := length_select_of_tableOk hp10
  simp only [keyParts, keyPartsOf, hk', permute_of_tableOk hp10 hk']
  generalize selectBits k T.p10 = p at hp ⊢
  have hs : splitBits p keyHalfW = .ok (p.take 5, p.drop 5) := splitBits_of_le (by simp [hp])
  have hl1 : lcs (p.take 5) shift1 = .ok ((p.take 5).drop 1 ++ (p.take 5).take 1) := lcs_of_lt (by simp [hp])
  have hr1 : lcs (p.drop 5) shift1 = .ok ((p.drop 5).drop 1 ++ (p.drop 5).take 1) := lcs_of_lt (by simp [hp])
  have hl : ((p.take 5).drop 1 ++ (p.take 5).take 1).length = 5 := by simp [hp]
  have hr : ((p.drop 5).drop 1 ++ (p.drop 5).take 1).length = 5 := by simp [hp]
  simp only [hs, hl1, hr1, bind, Except.bind, pure, Except.pure]
  generalize (p.take 5).drop 1 ++ (p.take 5).take 1 = l1 at hl ⊢
  generalize (p.drop 5).drop 1 ++ (p.drop 5).take 1 = r1 at hr ⊢
  have hl2 : lcs l1 shift2 = .ok (l1.drop 2 ++ l1.take 2) := lcs_of_lt (by simp [hl])
  have hr2 : lcs r1 shift2 = .ok (r1.drop 2 ++ r1.take 2) := lcs_of_lt (by simp [hr])
  have h1 : permute (l1 ++ r1) T.p8 = .ok (selectBits (l1 ++ r1) T.p8) := permute_of_tableOk hp8 (by simp [hl, hr])
  have h2 : permute ((l1.drop 2 ++ l1.take 2) ++ (r1.drop 2 ++ r1.take 2)) T.p8 =
      .ok (selectBits ((l1.drop 2 ++ l1.take 2) ++ (r1.drop 2 ++ r1.take 2)) T.p8) :=
    permute_of_tableOk hp8 (by simp [hl, hr])
  simp only [h1, hl2, hr2, h2]
  rfl

theorem keyParts_rejects {T : Tables} {k : Bitstring} (hk : ¬ keyOk k) : keyParts T k = .error .lengthMismatch := by
  have hk' : k.length ≠ 10 := hk
  simp [keyParts, hk']

theorem keySchedule_eq {T : Tables} {k : Bitstring} (hT : T.ok = true) (hk : keyOk k) :
    keySchedule T k = .ok ((keyPartsOf T k).k1, (keyPartsOf T k).k2) := by
  simp [keySchedule, keyParts_eq hT hk, bind, Except.bind, pure, Except.pure]

/-- The widths of the named values (10_state.md rule R24). -/
theorem keyPartsOf_lengths {T : Tables} (hT : T.ok = true) (k : Bitstring) :
    (keyPartsOf T k).p.length = 10 ∧ (keyPartsOf T k).l.length = 5 ∧ (keyPartsOf T k).r.length = 5 ∧
      (keyPartsOf T k).l1.length = 5 ∧ (keyPartsOf T k).r1.length = 5 ∧ (keyPartsOf T k).i1.length = 10 ∧
      (keyPartsOf T k).k1.length = 8 ∧ (keyPartsOf T k).l2.length = 5 ∧ (keyPartsOf T k).r2.length = 5 ∧
      (keyPartsOf T k).i2.length = 10 ∧ (keyPartsOf T k).k2.length = 8 := by
  obtain ⟨hp10, hp8, -⟩ := Tables.ok_parts hT
  have h10 : T.p10.length = 10 := (tableOk_iff.mp hp10).1
  have h8 : T.p8.length = 8 := (tableOk_iff.mp hp8).1
  simp [keyPartsOf, h10, h8]

end Sys2Proof
end

