-- ==== Sys2Proof/Laws/Feistel.lean ====
section
/-! SUPPORT. The Feistel processor on an 8-bit block and 8-bit round keys: it answers, with values of the lengths of
10_state.md rule R24, and it is the composition of its named parts. -/

namespace Sys2Proof

theorem fParts_succeeds {T : Tables} {r k : Bitstring} (hT : T.ok = true) (hr : r.length = halfW)
    (hk : k.length = roundKeyW) :
    ∃ f, fParts T r k = .ok f ∧ f.e.length = 8 ∧ f.x.length = 8 ∧ f.s.length = 4 ∧ f.q.length = 4 := by
  obtain ⟨-, -, -, -, hep, hp4, -, -⟩ := Tables.ok_parts hT
  have he : (selectBits r T.ep).length = 8 := length_select_of_tableOk hep
  have hkl : k.length = 8 := hk
  have hx : (List.zipWith Bool.xor (selectBits r T.ep) k).length = 8 := by simp [he, hkl]
  obtain ⟨ya, ha, hal⟩ := sbox_of_length (box := T.s0)
    (x := (List.zipWith Bool.xor (selectBits r T.ep) k).take 4) (by simp [hx])
  obtain ⟨yb, hb, hbl⟩ := sbox_of_length (box := T.s1)
    (x := (List.zipWith Bool.xor (selectBits r T.ep) k).drop 4) (by simp [hx])
  have hs : (ya ++ yb).length = 4 := by simp [hal, hbl]
  refine ⟨⟨selectBits r T.ep, List.zipWith Bool.xor (selectBits r T.ep) k, ya ++ yb, selectBits (ya ++ yb) T.p4⟩, ?_, he, hx, hs, length_select_of_tableOk hp4⟩
  simp [fParts, permute_of_tableOk hep hr, xorBits_of_length (he.trans hkl.symm), splitBits_of_le, hx, ha, hb,
    permute_of_tableOk hp4 hs, bind, Except.bind, pure, Except.pure]

theorem keyedF_succeeds {T : Tables} {r k : Bitstring} (hT : T.ok = true) (hr : r.length = halfW)
    (hk : k.length = roundKeyW) : ∃ q, keyedF T r k = .ok q ∧ q.length = halfW := by
  obtain ⟨f, hf, -, -, -, hq⟩ := fParts_succeeds hT hr hk
  exact ⟨f.q, by simp [keyedF, hf, bind, Except.bind, pure, Except.pure], hq⟩

theorem keyedF_of_fParts {T : Tables} {r k : Bitstring} {f : FParts} (h : fParts T r k = .ok f) :
    keyedF T r k = .ok f.q := by simp [keyedF, h, bind, Except.bind, pure, Except.pure]

/-- A round on a state given by its halves (42_feistel_datapath.md rules R118, R119). -/
theorem feistelRound_append {T : Tables} {l r k q : Bitstring} (hl : l.length = halfW) (hq : keyedF T r k = .ok q)
    (hql : q.length = halfW) : feistelRound T (l ++ r) k = .ok (List.zipWith Bool.xor q l ++ r) := by
  simp [feistelRound, splitBits_append hl, fk, hq, xorBits_of_length (hql.trans hl.symm), bind, Except.bind, pure,
    Except.pure]

/-- The swap on a state given by its halves (42_feistel_datapath.md rule R120). -/
theorem swapHalves_append {a c : Bitstring} (ha : a.length = halfW) : swapHalves (a ++ c) = .ok (c ++ a) := by
  simp [swapHalves, splitBits_append ha, bind, Except.bind, pure, Except.pure]

/-- An 8-bit state is two 4-bit halves. -/
theorem exists_halves {t : Bitstring} (ht : t.length = 8) :
    ∃ l r : Bitstring, t = l ++ r ∧ l.length = halfW ∧ r.length = halfW :=
  ⟨t.take 4, t.drop 4, (List.take_append_drop 4 t).symm, by simp [ht], by simp [ht]⟩

/-- The block transform on operands of the right lengths (42_feistel_datapath.md rule R124). The values of round 2 follow
from `l2 = r1` and `r2 = f1`. -/
theorem feistelParts_succeeds {T : Tables} {b ka kb : Bitstring} (hT : T.ok = true) (hb : blockOk b)
    (ha : ka.length = roundKeyW) (hkb : kb.length = roundKeyW) :
    ∃ fe, feistelParts T b ka kb = .ok fe ∧
      fe.ip = selectBits b T.ip ∧ fe.ip = fe.l1 ++ fe.r1 ∧ fParts T fe.r1 ka = .ok fe.f1Parts ∧
      fe.f1 = List.zipWith Bool.xor fe.f1Parts.q fe.l1 ∧ fe.st1 = fe.f1 ++ fe.r1 ∧ fe.sw = fe.r1 ++ fe.f1 ∧
      fe.l2 = fe.r1 ∧ fe.r2 = fe.f1 ∧ fParts T fe.r2 kb = .ok fe.f2Parts ∧
      fe.f2 = List.zipWith Bool.xor fe.f2Parts.q fe.l2 ∧ fe.st2 = fe.f2 ++ fe.r2 ∧ fe.out = selectBits fe.st2 T.fp ∧
      fe.l1.length = 4 ∧ fe.r1.length = 4 ∧ fe.f1.length = 4 ∧ fe.f2.length = 4 := by
  obtain ⟨-, -, hip, -⟩ := Tables.ok_parts hT
  obtain ⟨l, r, hlr, hl, hr⟩ := exists_halves (length_select_of_tableOk (b := b) hip)
  obtain ⟨f, hf, -, -, -, hq⟩ := fParts_succeeds hT hr ha
  have hf1 : (List.zipWith Bool.xor f.q l).length = halfW := by simp [hq, hl]
  obtain ⟨g, hg, -, -, -, hq2⟩ := fParts_succeeds hT hf1 hkb
  have hf2 : (List.zipWith Bool.xor g.q r).length = halfW := by simp [hq2, hr]
  have hst2 : (List.zipWith Bool.xor g.q r ++ List.zipWith Bool.xor f.q l).length = 8 := by
    simp [hq, hq2, hl, hr]
  generalize hx1 : List.zipWith Bool.xor f.q l = x1 at hf1 hg hst2
  generalize hx2 : List.zipWith Bool.xor g.q r = x2 at hf2 hst2
  refine ⟨⟨l ++ r, l, r, f, x1, x1 ++ r, r ++ x1, r, x1, g, x2, x2 ++ x1, selectBits (x2 ++ x1) T.fp⟩, ?_, hlr.symm, rfl, hf,
    hx1.symm, rfl, rfl, rfl, rfl, hg, hx2.symm, rfl, rfl, hl, hr, hf1, hf2⟩
  simp [feistelParts, permute_of_tableOk hip hb, hlr, splitBits_append hl, splitBits_append hf1, splitBits_append hr, hf,
    hg, xorBits_of_length (hq.trans hl.symm), xorBits_of_length (hq2.trans hr.symm), hx1, hx2, permute_of_tableOk (tableOk_fp hT) hst2,
    bind, Except.bind, pure, Except.pure]

theorem feistel_of_feistelParts {T : Tables} {b ka kb : Bitstring} {fe : FeistelParts}
    (h : feistelParts T b ka kb = .ok fe) : feistel T b ka kb = .ok fe.out := by
  simp [feistel, h, bind, Except.bind, pure, Except.pure]

/-- The output of the block transform is a block. -/
theorem feistel_succeeds {T : Tables} {b ka kb : Bitstring} (hT : T.ok = true) (hb : blockOk b)
    (ha : ka.length = roundKeyW) (hkb : kb.length = roundKeyW) : ∃ c, feistel T b ka kb = .ok c ∧ blockOk c := by
  obtain ⟨fe, hfe, -, -, -, -, -, -, -, -, -, -, -, hout, -⟩ := feistelParts_succeeds hT hb ha hkb
  refine ⟨fe.out, feistel_of_feistelParts hfe, ?_⟩
  rw [hout]; exact length_select_of_tableOk (tableOk_fp hT)

theorem encryptBlock_eq {T : Tables} {b k : Bitstring} (hT : T.ok = true) (hk : keyOk k) :
    encryptBlock T b k = feistel T b (keyPartsOf T k).k1 (keyPartsOf T k).k2 := by
  simp [encryptBlock, keySchedule_eq hT hk, bind, Except.bind]

theorem decryptBlock_eq {T : Tables} {b k : Bitstring} (hT : T.ok = true) (hk : keyOk k) :
    decryptBlock T b k = feistel T b (keyPartsOf T k).k2 (keyPartsOf T k).k1 := by
  simp [decryptBlock, keySchedule_eq hT hk, bind, Except.bind]

theorem encryptBlock_succeeds {T : Tables} {b k : Bitstring} (hT : T.ok = true) (hb : blockOk b) (hk : keyOk k) :
    ∃ c, encryptBlock T b k = .ok c ∧ blockOk c := by
  obtain ⟨-, -, -, -, -, -, h1, -, -, -, h2⟩ := keyPartsOf_lengths hT k
  rw [encryptBlock_eq hT hk]; exact feistel_succeeds hT hb h1 h2

theorem decryptBlock_succeeds {T : Tables} {b k : Bitstring} (hT : T.ok = true) (hb : blockOk b) (hk : keyOk k) :
    ∃ c, decryptBlock T b k = .ok c ∧ blockOk c := by
  obtain ⟨-, -, -, -, -, -, h1, -, -, -, h2⟩ := keyPartsOf_lengths hT k
  rw [decryptBlock_eq hT hk]; exact feistel_succeeds hT hb h2 h1

end Sys2Proof
end

