-- ==== Sys2Proof/Laws/State.lean ====
section
/-! SUPPORT. One lemma per field per update of State, so that no proof unfolds a record update. -/

namespace Sys2Proof

theorem Config.build_of_ok {T : Tables} {onReject : TraceOnReject} (h : T.ok = true) :
    Config.build T onReject = some { tables := T, traceOnReject := onReject, tablesOk := h } := by
  simp [Config.build, h]

theorem Config.build_of_not_ok {T : Tables} {onReject : TraceOnReject} (h : T.ok = false) :
    Config.build T onReject = none := by simp [Config.build, h]

end Sys2Proof

namespace Sys2Proof.Machine

variable (s : State) (r : Response) (t : List TraceEntry) (e : ErrorKind) (ev : HostEvent)

@[simp] theorem State.ofConfig_config (c : Config) : (State.ofConfig c).config = c := rfl
@[simp] theorem State.ofConfig_trace (c : Config) : (State.ofConfig c).trace = [] := rfl
@[simp] theorem State.ofConfig_pending (c : Config) : (State.ofConfig c).pending = [] := rfl
@[simp] theorem State.ofConfig_response (c : Config) : (State.ofConfig c).response = none := rfl

@[simp] theorem State.respond_config : (s.respond r).config = s.config := rfl
@[simp] theorem State.respond_trace : (s.respond r).trace = s.trace := rfl
@[simp] theorem State.respond_pending : (s.respond r).pending = s.pending := rfl
@[simp] theorem State.respond_response : (s.respond r).response = some r := rfl

@[simp] theorem State.setTrace_config : (s.setTrace t).config = s.config := rfl
@[simp] theorem State.setTrace_trace : (s.setTrace t).trace = t := rfl
@[simp] theorem State.setTrace_pending : (s.setTrace t).pending = s.pending := rfl
@[simp] theorem State.setTrace_response : (s.setTrace t).response = s.response := rfl

@[simp] theorem State.fail_config : (s.fail e).config = s.config := rfl
@[simp] theorem State.fail_trace : (s.fail e).trace = s.trace := rfl
@[simp] theorem State.fail_pending : (s.fail e).pending = s.pending := rfl
@[simp] theorem State.fail_response : (s.fail e).response = some (.err e) := rfl

@[simp] theorem State.applyReset_config : s.applyReset.config = s.config := rfl
@[simp] theorem State.applyReset_trace : s.applyReset.trace = [] := rfl
@[simp] theorem State.applyReset_pending : s.applyReset.pending = s.pending := rfl
@[simp] theorem State.applyReset_response : s.applyReset.response = none := rfl

@[simp] theorem State.send_config : (s.send ev).config = s.config := rfl
@[simp] theorem State.send_trace : (s.send ev).trace = s.trace := rfl
@[simp] theorem State.send_pending : (s.send ev).pending = ev :: s.pending := rfl
@[simp] theorem State.send_response : (s.send ev).response = s.response := rfl

@[simp] theorem State.traceOnReject_config : s.traceOnReject.config = s.config := by
  unfold State.traceOnReject; split <;> rfl

@[simp] theorem State.traceOnReject_pending : s.traceOnReject.pending = s.pending := by
  unfold State.traceOnReject; split <;> rfl

@[simp] theorem State.traceOnReject_response : s.traceOnReject.response = s.response := by
  unfold State.traceOnReject; split <;> rfl

theorem State.traceOnReject_trace_keep (h : s.config.traceOnReject = .keep) : s.traceOnReject.trace = s.trace := by
  simp [State.traceOnReject, h]

theorem State.traceOnReject_trace_clear (h : s.config.traceOnReject = .clear) : s.traceOnReject.trace = [] := by
  simp [State.traceOnReject, h]

/-- A rejected command never leaves a partial trace (43_commands.md rule R150). -/
theorem State.traceOnReject_trace_cases : s.traceOnReject.trace = s.trace ∨ s.traceOnReject.trace = [] := by
  cases h : s.config.traceOnReject
  · exact .inl (s.traceOnReject_trace_keep h)
  · exact .inr (s.traceOnReject_trace_clear h)

@[simp] theorem State.rejectBlock_config : (s.rejectBlock e).config = s.config := by simp [State.rejectBlock]
@[simp] theorem State.rejectBlock_trace : (s.rejectBlock e).trace = s.traceOnReject.trace := rfl
@[simp] theorem State.rejectBlock_pending : (s.rejectBlock e).pending = s.pending := by simp [State.rejectBlock]
@[simp] theorem State.rejectBlock_response : (s.rejectBlock e).response = some (.err e) := rfl

/-- Two states with the same fields are the same state. -/
theorem State.eq_of_fields {s t : State} (hc : s.config = t.config) (ht : s.trace = t.trace)
    (hp : s.pending = t.pending) (hr : s.response = t.response) : s = t := by
  cases s; cases t; simp_all

end Sys2Proof.Machine
end

