-- ==== Sys2Proof/Laws/Commands.lean ====
section
/-! SUPPORT. What a command can do: one lemma per operation, which later proofs cite instead of unfolding it. -/

namespace Sys2Proof.Machine

/-! ## The block operation -/

theorem blockCommand_rejects {lab : Label} {order : KeyParts → Bitstring × Bitstring} {b k : Bitstring} {s : State}
    (h : ¬ (blockOk b ∧ keyOk k)) : blockCommand lab order b k s = s.rejectBlock .lengthMismatch := by
  rw [blockCommand, if_pos]
  rcases not_and_or.mp h with h | h
  · exact .inl h
  · exact .inr h

theorem blockCommand_of_parts {lab : Label} {order : KeyParts → Bitstring × Bitstring} {b k : Bitstring} {s : State}
    {ks : KeyParts} {fe : FeistelParts} (hb : blockOk b) (hk : keyOk k)
    (h : blockParts s.config.tables order b k = .ok (ks, fe)) :
    blockCommand lab order b k s = (s.setTrace (traceOf lab ks fe)).respond (.okBlock fe.out) := by
  rw [blockCommand, if_neg (by simp [show b.length = 8 from hb, show k.length = 10 from hk]), h]

/-- The order of the round keys is one of the two (43_commands.md rules R145, R147). -/
def roundKeyOrder (order : KeyParts → Bitstring × Bitstring) : Prop := order = encryptOrder ∨ order = decryptOrder

theorem blockParts_succeeds {T : Tables} {order : KeyParts → Bitstring × Bitstring} {b k : Bitstring}
    (ho : roundKeyOrder order) (hT : T.ok = true) (hb : blockOk b) (hk : keyOk k) :
    ∃ fe, blockParts T order b k = .ok (keyPartsOf T k, fe) ∧
      feistelParts T b (order (keyPartsOf T k)).1 (order (keyPartsOf T k)).2 = .ok fe := by
  obtain ⟨-, -, -, -, -, -, h1, -, -, -, h2⟩ := keyPartsOf_lengths hT k
  have hlen : (order (keyPartsOf T k)).1.length = 8 ∧ (order (keyPartsOf T k)).2.length = 8 := by
    rcases ho with rfl | rfl
    · exact ⟨h1, h2⟩
    · exact ⟨h2, h1⟩
  obtain ⟨fe, hfe, -⟩ := feistelParts_succeeds hT hb hlen.1 hlen.2
  exact ⟨fe, by simp [blockParts, keyParts_eq hT hk, hfe, bind, Except.bind, pure, Except.pure], hfe⟩

/-- What is behind the values of a successful block operation. -/
theorem blockParts_parts {T : Tables} {order : KeyParts → Bitstring × Bitstring} {b k : Bitstring} {ks : KeyParts}
    {fe : FeistelParts} (h : blockParts T order b k = .ok (ks, fe)) :
    keyParts T k = .ok ks ∧ feistelParts T b (order ks).1 (order ks).2 = .ok fe := by
  simp only [blockParts, bind, Except.bind, pure, Except.pure] at h
  split at h
  · cases h
  · next ks' hks =>
    split at h
    · cases h
    · next fe' hfe =>
      injection h with h; injection h with h1 h2; subst h1 h2
      exact ⟨hks, hfe⟩

/-- The shape of the trace of a well-formed command (10_state.md rule R22). -/
theorem traceOf_hasShape {T : Tables} {order : KeyParts → Bitstring × Bitstring} {b k : Bitstring} {ks : KeyParts}
    {fe : FeistelParts} {lab : Label} (ho : roundKeyOrder order) (hT : T.ok = true) (hb : blockOk b) (hk : keyOk k)
    (h : blockParts T order b k = .ok (ks, fe)) : shapeOf (traceOf lab ks fe) = traceShape lab := by
  obtain ⟨hks, hfe⟩ := blockParts_parts h
  obtain rfl : keyPartsOf T k = ks := by simpa [keyParts_eq hT hk] using hks
  obtain ⟨hp, -, -, -, -, hi1, hk1, -, -, hi2, hk2⟩ := keyPartsOf_lengths hT k
  have hlen : (order (keyPartsOf T k)).1.length = 8 ∧ (order (keyPartsOf T k)).2.length = 8 := by
    rcases ho with rfl | rfl
    · exact ⟨hk1, hk2⟩
    · exact ⟨hk2, hk1⟩
  obtain ⟨fe', hfe', -, hip, hF1, -, hst1, hsw, -, hr2, hF2, -, hst2, hout, hl1, hr1, hf1, hf2⟩ :=
    feistelParts_succeeds hT hb hlen.1 hlen.2
  obtain rfl : fe' = fe := by simpa [hfe'] using hfe
  obtain ⟨f, hf, he1, hx1, hs1, hq1⟩ := fParts_succeeds hT hr1 hlen.1
  obtain rfl : f = fe'.f1Parts := by simpa [hf] using hF1
  obtain ⟨g, hg, he2, hx2, hs2, hq2⟩ := fParts_succeeds hT (r := fe'.r2) (by rw [hr2]; exact hf1) hlen.2
  obtain rfl : g = fe'.f2Parts := by simpa [hg] using hF2
  have h8 : fe'.out.length = 8 := by rw [hout]; exact length_select_of_tableOk (tableOk_fp hT)
  have hr2l : fe'.r2.length = 4 := by rw [hr2]; exact hf1
  simp [shapeOf, traceOf, traceShape, hp, hi1, hk1, hi2, hk2, hip, hl1, hr1, he1, hx1, hs1, hq1, hf1, hst1, hsw, he2, hx2,
    hs2, hq2, hf2, hst2, hr2l, h8]

/-- A trace of a well-formed command has the 20 entries (10_state.md rules R20, R22). -/
theorem traceOk_of_traceOfBlock {T : Tables} {t : List TraceEntry} (hT : T.ok = true) (h : traceOfBlock T t) :
    traceOk t := by
  obtain ⟨b, k, ks, fe, hb, hk, ⟨hp, rfl⟩ | ⟨hp, rfl⟩⟩ := h
  · exact .inr (.inl (traceOf_hasShape (.inl rfl) hT hb hk hp))
  · exact .inr (.inr (traceOf_hasShape (.inr rfl) hT hb hk hp))

/-! ## The four commands -/

theorem exec_log (s : State) : exec .log s = .next (s.respond (.okLog s.trace)) := rfl

theorem exec_enc (b k : Bitstring) (s : State) :
    exec (.enc b k) s = .next (blockCommand .finalCiphertext encryptOrder b k s) := rfl

theorem exec_dec (b k : Bitstring) (s : State) :
    exec (.dec b k) s = .next (blockCommand .finalPlaintext decryptOrder b k s) := rfl

theorem exec_ksch_rejects {k : Bitstring} {s : State} (h : ¬ keyOk k) :
    exec (.ksch k) s = .next (s.fail .lengthMismatch) := by
  show execKsch k s = _
  rw [execKsch, if_pos h]

theorem exec_ksch_of_wf {k : Bitstring} {s : State} (h : keyOk k) :
    exec (.ksch k) s = .next (s.respond
      (.okKeys (keyPartsOf s.config.tables k).k1 (keyPartsOf s.config.tables k).k2)) := by
  show execKsch k s = _
  rw [execKsch, if_neg (not_not.mpr h), keySchedule_eq s.config.tablesOk h]

/-- The block a well-formed operation answers is the one the block function gives. -/
theorem encryptBlock_of_parts {T : Tables} {b k : Bitstring} {ks : KeyParts} {fe : FeistelParts}
    (h : blockParts T encryptOrder b k = .ok (ks, fe)) : encryptBlock T b k = .ok fe.out := by
  obtain ⟨hks, hfe⟩ := blockParts_parts h
  simp only [encryptOrder] at hfe
  simp [encryptBlock, keySchedule, hks, feistel, hfe, bind, Except.bind, pure, Except.pure]

theorem decryptBlock_of_parts {T : Tables} {b k : Bitstring} {ks : KeyParts} {fe : FeistelParts}
    (h : blockParts T decryptOrder b k = .ok (ks, fe)) : decryptBlock T b k = .ok fe.out := by
  obtain ⟨hks, hfe⟩ := blockParts_parts h
  simp only [decryptOrder] at hfe
  simp [decryptBlock, keySchedule, hks, feistel, hfe, bind, Except.bind, pure, Except.pure]

/-- Everything a block operation can do to the state. -/
theorem blockCommand_cases {lab : Label} {order : KeyParts → Bitstring × Bitstring} (b k : Bitstring) (s : State) :
    (∃ e, blockCommand lab order b k s = s.rejectBlock e) ∨
    (∃ ks fe, blockOk b ∧ keyOk k ∧ blockParts s.config.tables order b k = .ok (ks, fe) ∧
      blockCommand lab order b k s = (s.setTrace (traceOf lab ks fe)).respond (.okBlock fe.out)) := by
  unfold blockCommand
  split
  · exact .inl ⟨_, rfl⟩
  · next h =>
    rw [not_or, not_not, not_not] at h
    split
    · next ks fe hp => exact .inr ⟨ks, fe, h.1, h.2, hp, rfl⟩
    · exact .inl ⟨_, rfl⟩

@[simp] theorem blockCommand_config (lab : Label) (order : KeyParts → Bitstring × Bitstring) (b k : Bitstring)
    (s : State) : (blockCommand lab order b k s).config = s.config := by
  obtain ⟨e, h⟩ | ⟨ks, fe, -, -, -, h⟩ := blockCommand_cases (lab := lab) (order := order) b k s <;> simp [h]

@[simp] theorem blockCommand_pending (lab : Label) (order : KeyParts → Bitstring × Bitstring) (b k : Bitstring)
    (s : State) : (blockCommand lab order b k s).pending = s.pending := by
  obtain ⟨e, h⟩ | ⟨ks, fe, -, -, -, h⟩ := blockCommand_cases (lab := lab) (order := order) b k s <;> simp [h]

/-- The state after KSCH, which writes the response and nothing else. -/
theorem execKsch_cases (k : Bitstring) (s : State) : ∃ r, execKsch k s = .next (s.respond r) := by
  unfold execKsch
  split
  · exact ⟨_, rfl⟩
  · split
    · exact ⟨_, rfl⟩
    · exact ⟨_, rfl⟩

end Sys2Proof.Machine
end

