-- ==== Sys2Proof/Laws/Decode.lean ====
section
/-! SUPPORT. The decoder by opcode, and the operands of a packed word. -/

namespace Sys2Proof

theorem opField_cases (w : CommandWord) : opField w = 0 ∨ opField w = 1 ∨ opField w = 2 ∨ opField w = 3 := by
  generalize opField w = x; revert x; decide

theorem decode_of_op_log {w : CommandWord} (h : opField w = 0) : decode w = .log := by simp [decode, h]

theorem decode_of_op_ksch {w : CommandWord} (h : opField w = 1) : decode w = .ksch (keyOperand w) := by simp [decode, h]

theorem decode_of_op_enc {w : CommandWord} (h : opField w = 2) : decode w = .enc (blockOperand w) (keyOperand w) := by
  simp [decode, h]

theorem decode_of_op_dec {w : CommandWord} (h : opField w = 3) : decode w = .dec (blockOperand w) (keyOperand w) := by
  simp [decode, h]

theorem keyOperand_packCommand {k : Bitstring} (op : BitVec 2) (data : BitVec 8) (h : keyOk k) :
    keyOperand (packCommand op (BitVec.ofNat 10 (val k)) data) = k := by
  simp only [keyOperand, keyField_packCommand, BitVec.toNat_ofNat]
  rw [bits_mod _ _ _ (le_refl _)]; exact bits_val_of_length h

theorem blockOperand_packCommand {b : Bitstring} (op : BitVec 2) (key : BitVec 10) (h : blockOk b) :
    blockOperand (packCommand op key (BitVec.ofNat 8 (val b))) = b := by
  simp only [blockOperand, dataField_packCommand, BitVec.toNat_ofNat]
  rw [bits_mod _ _ _ (le_refl _)]; exact bits_val_of_length h

/-- The field of a decoded key operand is the field it was decoded from. -/
theorem ofNat_val_keyOperand (w : CommandWord) : BitVec.ofNat 10 (val (keyOperand w)) = keyField w := by
  apply BitVec.eq_of_toNat_eq
  have := (keyField w).isLt
  simp [keyOperand, val_bits]; omega

/-- The field of a decoded block operand is the field it was decoded from. -/
theorem ofNat_val_blockOperand (w : CommandWord) : BitVec.ofNat 8 (val (blockOperand w)) = dataField w := by
  apply BitVec.eq_of_toNat_eq
  have := (dataField w).isLt
  simp [blockOperand, val_bits]; omega

end Sys2Proof
end

