-- ==== Sys2Proof/Laws/Host.lean ====
section
/-! SUPPORT. What a host procedure gets back from an instance, and what a loop over one instance answers. -/

namespace Sys2Proof.Machine

theorem hostEncrypt_of_wf {b k : Bitstring} {s : State} (hb : blockOk b) (hk : keyOk k) :
    ∃ c t, blockOk c ∧ encryptBlock s.config.tables b k = .ok c ∧ hostEncrypt b k s = (.ok c, t) ∧
      t.config = s.config := by
  obtain ⟨fe, hp, -⟩ := blockParts_succeeds (.inl rfl) s.config.tablesOk hb hk
  obtain ⟨c, hc, hlen⟩ := encryptBlock_succeeds s.config.tablesOk hb hk
  obtain rfl : fe.out = c := by rw [encryptBlock_of_parts hp] at hc; injection hc
  refine ⟨fe.out, (s.setTrace (traceOf .finalCiphertext (keyPartsOf s.config.tables k) fe)).respond (.okBlock fe.out), hlen, hc, ?_,
    rfl⟩
  rw [hostEncrypt, issue, exec_enc, blockCommand_of_parts hb hk hp]; rfl

theorem hostDecrypt_of_wf {b k : Bitstring} {s : State} (hb : blockOk b) (hk : keyOk k) :
    ∃ c t, blockOk c ∧ decryptBlock s.config.tables b k = .ok c ∧ hostDecrypt b k s = (.ok c, t) ∧
      t.config = s.config := by
  obtain ⟨fe, hp, -⟩ := blockParts_succeeds (.inr rfl) s.config.tablesOk hb hk
  obtain ⟨c, hc, hlen⟩ := decryptBlock_succeeds s.config.tablesOk hb hk
  obtain rfl : fe.out = c := by rw [decryptBlock_of_parts hp] at hc; injection hc
  refine ⟨fe.out, (s.setTrace (traceOf .finalPlaintext (keyPartsOf s.config.tables k) fe)).respond (.okBlock fe.out), hlen, hc, ?_,
    rfl⟩
  rw [hostDecrypt, issue, exec_dec, blockCommand_of_parts hb hk hp]; rfl

/-- A loop whose every action answers, whatever trace it finds, answers the list of the results. -/
theorem forEach_of_each {α β : Type} {f : α → State → Except HostStop β × State} {rel : α → β → Prop} {cfg : Config}
    {l : List α}
    (hf : ∀ a ∈ l, ∀ s : State, s.config = cfg → ∃ y t, f a s = (.ok y, t) ∧ t.config = cfg ∧ rel a y) :
    ∀ s : State, s.config = cfg → ∃ ys t, forEach f l s = (.ok ys, t) ∧ t.config = cfg ∧ List.Forall₂ rel l ys := by
  induction l with
  | nil => intro s hs; exact ⟨[], s, rfl, hs, .nil⟩
  | cons a l ih =>
    intro s hs
    obtain ⟨y, t, h1, h2, h3⟩ := hf a (by simp) s hs
    obtain ⟨ys, u, h4, h5, h6⟩ := ih (fun b hb => hf b (by simp [hb])) t h2
    exact ⟨y :: ys, u, by simp [forEach, h1, h4], h5, .cons h3 h6⟩

end Sys2Proof.Machine
end

