-- ==== Sys2Proof/Laws/PerInstr.lean ====
section
/-! SUPPORT. Statements made for every command by name, one lemma per constructor of Instr (LAWS.json). -/

namespace Sys2Proof.Laws.OpField

/-- The word of a command carries the command's opcode in bits 19:18 (30_encoding.md rule R56). -/
def Statement (i : Instr) : Prop := ∀ w, encode i = some w → opField w = opcode i

theorem log : Statement .log := by
  intro w h
  obtain rfl : packCommand (opcode .log) 0 0 = w := by simpa [encode, Instr.wf] using h
  simp

theorem ksch (k : Bitstring) : Statement (.ksch k) := by
  intro w h
  simp only [encode] at h
  split at h
  · injection h with h; subst h; simp
  · cases h

theorem enc (b k : Bitstring) : Statement (.enc b k) := by
  intro w h
  simp only [encode] at h
  split at h
  · injection h with h; subst h; simp
  · cases h

theorem dec (b k : Bitstring) : Statement (.dec b k) := by
  intro w h
  simp only [encode] at h
  split at h
  · injection h with h; subst h; simp
  · cases h

end Sys2Proof.Laws.OpField
end

