-- ==== Sys2Proof/Laws/Step.lean ====
section
/-! SUPPORT. What a step can do. -/

namespace Sys2Proof.Machine

theorem step_quiescent {s : State} (h : s.pending = []) : step s = .next s := by simp [step, h]

theorem step_word {s : State} {w : CommandWord} {rest : List HostEvent} (h : s.pending = .word w :: rest) :
    step s = exec (decode w) { s with pending := rest } := by simp [step, h]

theorem step_command {s : State} {i : Instr} {rest : List HostEvent} (h : s.pending = .command i :: rest) :
    step s = exec i { s with pending := rest } := by simp [step, h]

theorem step_reset {s : State} {rest : List HostEvent} (h : s.pending = .reset :: rest) :
    step s = .next { s with pending := rest, trace := [], response := none } := by simp [step, h, State.applyReset]

/-- Everything a step that answers a next state can be. -/
theorem step_cases {s t : State} (h : step s = .next t) :
    (s.pending = [] ∧ t = s) ∨
    (∃ rest, s.pending = .reset :: rest ∧ t = { s with pending := rest, trace := [], response := none }) ∨
    (∃ i rest, (s.pending = .command i :: rest ∨ ∃ w, s.pending = .word w :: rest ∧ decode w = i) ∧
      exec i { s with pending := rest } = .next t) := by
  cases hp : s.pending with
  | nil =>
    rw [step_quiescent hp] at h
    exact .inl ⟨rfl, by injection h with h; exact h.symm⟩
  | cons e rest =>
    cases e with
    | word w => exact .inr (.inr ⟨decode w, rest, .inr ⟨w, rfl, rfl⟩, by rw [← step_word hp]; exact h⟩)
    | command i => exact .inr (.inr ⟨i, rest, .inl rfl, by rw [← step_command hp]; exact h⟩)
    | reset =>
      rw [step_reset hp] at h
      exact .inr (.inl ⟨rest, rfl, by injection h with h; exact h.symm⟩)

end Sys2Proof.Machine
end

