-- ==== Sys2Proof/Laws/Platform.lean ====
section
/-! SUPPORT. An instance of a platform as a machine, and what one move changes. -/

namespace Sys2Proof.Machine

variable (i : InstanceState) (c : Config) (p : Platform) (n : Nat)

@[simp] theorem InstanceState.on_config : (i.on c).config = c := rfl
@[simp] theorem InstanceState.on_trace : (i.on c).trace = i.trace := rfl
@[simp] theorem InstanceState.on_pending : (i.on c).pending = i.pending := rfl
@[simp] theorem InstanceState.on_response : (i.on c).response = i.response := rfl
@[simp] theorem InstanceState.own_on : (i.on c).own = i := rfl
@[simp] theorem State.own_trace (s : State) : s.own.trace = s.trace := rfl
@[simp] theorem State.own_pending (s : State) : s.own.pending = s.pending := rfl
@[simp] theorem State.own_response (s : State) : s.own.response = s.response := rfl

/-- Nothing of an instance is lost on a platform of its configuration. -/
theorem State.on_own {s : State} (h : s.config = c) : s.own.on c = s := by subst h; rfl

@[simp] theorem Platform.advance_config : (p.advance n).config = p.config := rfl
@[simp] theorem Platform.advance_instances :
    (p.advance n).instances = p.instances.modify n (InstanceState.move p.config) := rfl

/-- Two platforms with the same configuration and instances are the same platform. -/
theorem Platform.eq_of_fields {p q : Platform} (hc : p.config = q.config) (hi : p.instances = q.instances) : p = q := by
  cases p; cases q; simp_all

theorem InstanceState.move_of_next {i : InstanceState} {c : Config} {t : State} (h : step (i.on c) = .next t) :
    i.move c = t.own := by simp [InstanceState.move, h]

end Sys2Proof.Machine
end

