-- ==== Sys2Proof/Laws/Responses.lean ====
section
/-! SUPPORT. The fields of a packed status word and of a packed entry word. -/

namespace Sys2Proof.Machine

theorem toNat_packStatus (code : BitVec 3) (hi lo : BitVec 8) :
    (packStatus code hi lo).toNat = (code.toNat * 256 + hi.toNat) * 256 + lo.toNat := by
  have := code.isLt; have := hi.isLt; have := lo.isLt
  rw [packStatus]
  simp only [BitVec.toNat_append]
  rw [← Nat.shiftLeft_add_eq_or_of_lt (by omega), Nat.shiftLeft_eq, ← Nat.shiftLeft_add_eq_or_of_lt (by omega),
    Nat.shiftLeft_eq]

theorem toNat_packEntry (labelId : BitVec 5) (len : BitVec 4) (value : BitVec 10) :
    (packEntry labelId len value).toNat = (labelId.toNat * 16 + len.toNat) * 1024 + value.toNat := by
  have := labelId.isLt; have := len.isLt; have := value.isLt
  rw [packEntry]
  simp only [BitVec.toNat_append]
  rw [← Nat.shiftLeft_add_eq_or_of_lt (by omega), Nat.shiftLeft_eq, ← Nat.shiftLeft_add_eq_or_of_lt (by omega),
    Nat.shiftLeft_eq]

theorem packStatus_fields (code : BitVec 3) (hi lo : BitVec 8) :
    (packStatus code hi lo).extractLsb' 16 3 = code ∧ (packStatus code hi lo).extractLsb' 8 8 = hi ∧
      (packStatus code hi lo).extractLsb' 0 8 = lo := by
  have := code.isLt; have := hi.isLt; have := lo.isLt
  refine ⟨?_, ?_, ?_⟩ <;>
    · apply BitVec.eq_of_toNat_eq
      simp only [BitVec.extractLsb'_toNat, toNat_packStatus, Nat.shiftRight_eq_div_pow]
      omega

theorem packEntry_fields (labelId : BitVec 5) (len : BitVec 4) (value : BitVec 10) :
    (packEntry labelId len value).extractLsb' 14 5 = labelId ∧ (packEntry labelId len value).extractLsb' 10 4 = len ∧
      (packEntry labelId len value).extractLsb' 0 10 = value := by
  have := labelId.isLt; have := len.isLt; have := value.isLt
  refine ⟨?_, ?_, ?_⟩ <;>
    · apply BitVec.eq_of_toNat_eq
      simp only [BitVec.extractLsb'_toNat, toNat_packEntry, Nat.shiftRight_eq_div_pow]
      omega

/-- A Bitstring of at most `n` bits fits in a field of `n` bits. -/
theorem toNat_ofNat_val {n : Nat} {b : Bitstring} (h : b.length ≤ n) : (BitVec.ofNat n (val b)).toNat = val b := by
  rw [BitVec.toNat_ofNat, Nat.mod_eq_of_lt]
  exact lt_of_lt_of_le (val_lt b) (Nat.pow_le_pow_right (by omega) h)

end Sys2Proof.Machine
end

