-- ==== Sys2Proof/Machine/Reports.lean ====
section
/-! DEFINITION. The lines of the two artifacts that the outputs of the host procedures must be able to feed
(45_host_procedures.md rule R178). The presentation layer that stores them is out of scope (00_scope.md rule R4 (b));
the order of the rows is the model's choice (log 17). -/

namespace Sys2Proof.Machine

/-- The lines of the search artifact: the header, then one key per row (rule R178). -/
def searchLines (keys : List Bitstring) : List (List Char) :=
  "candidate_key_10bit".toList :: keys.map renderBits

/-- The greatest number of keys shown in a row of the collision artifact (rule R178). -/
def maxExamples : Nat := 20

/-- One row of the collision artifact: the ciphertext, the number of its keys, and the first 20 of them joined by
semicolons (rule R178). -/
def collisionRow (entry : Bitstring × List Bitstring) : List Char :=
  renderBits entry.1 ++ ',' :: (Nat.toDigits 10 entry.2.length ++
    ',' :: ((entry.2.take maxExamples).map renderBits |>.intersperse [';']).flatten)

/-- The lines of the collision artifact (rule R178). -/
def collisionLines (m : CollisionMap) : List (List Char) :=
  "ciphertext_8bit,num_keys,example_keys".toList :: m.map collisionRow

end Sys2Proof.Machine
end

