-- ==== Sys2Proof/Tests/Slice0.lean ====
section
/-! SUPPORT. The model's own tests. Expected values are those of the spec (95_test_vectors.md and the rules named); the
witnesses at the end show, for every statement that has hypotheses, operands and states that meet them together. -/

namespace Sys2Proof.Tests

open Sys2Proof.Machine

/-! ## Operands and states -/

/-- The block of 95_test_vectors.md V20. -/
def block : Bitstring := [true, false, true, true, false, true, false, true]

/-- The master key of 95_test_vectors.md V20. -/
def key : Bitstring := [true, false, true, false, false, false, false, false, true, false]

/-- The ciphertext of 95_test_vectors.md V20. -/
def cipher : Bitstring := [false, false, false, true, true, false, true, true]

/-- The state after a command. -/
def after (i : Instr) (s : State) : State := (issue i s).2

/-- The trace of V20 in place (95_test_vectors.md PROG5). -/
def afterEnc : State := after (.enc block key) State.reset

/-- The same under `TRACE_ON_REJECT = clear`. -/
def afterEncClear : State :=
  { afterEnc with config := { tables := tablesStd, traceOnReject := .clear, tablesOk := by decide } }

/-- The response of a step of `s`, its words, and the trace it leaves as label numbers and values; none where the step
answers no next state. -/
def observe (s : State) : Option (Option Response × List ResponseWord × List (Nat × Bitstring)) :=
  match step s with
  | .next t => some (t.response, t.responseWords, t.trace.map fun e => (labelId e.label, e.value))
  | .fault _ => none
  | .refused _ => none

/-- A table set that fails the check: an IP that names position 1 twice. -/
def badTables : Tables := { tablesStd with ip := [1, 1, 3, 2, 4, 8, 5, 7] }

/-- A platform of two instances under the default configuration. -/
def twoInstances : Platform where
  config := configStd
  instances := List.replicate 2 (State.ofConfig configStd).own
  atLeastOne := by decide

/-! ## WellFormed: each check refuses an ill-formed term (43_commands.md R142; 30_encoding.md R60) -/

theorem test_wf_log : Instr.log.wf = true := by decide
theorem test_wf_refuses_ksch_key : (Instr.ksch (bits 9 0)).wf = false ∧ (Instr.ksch (bits 11 0)).wf = false := by decide
theorem test_wf_refuses_enc_block : (Instr.enc (bits 7 0) key).wf = false ∧ (Instr.enc (bits 9 0) key).wf = false := by
  decide
theorem test_wf_refuses_enc_key : (Instr.enc block (bits 9 0)).wf = false ∧ (Instr.enc block []).wf = false := by decide
theorem test_wf_refuses_dec_block : (Instr.dec (bits 7 0) key).wf = false ∧ (Instr.dec [] key).wf = false := by decide
theorem test_wf_refuses_dec_key : (Instr.dec block (bits 9 0)).wf = false ∧ (Instr.dec block (bits 11 0)).wf = false := by
  decide
theorem test_encode_refuses_malformed : encode (.ksch (bits 9 0)) = none ∧ encode (.enc (bits 7 0) key) = none ∧
    encode (.dec block (bits 11 0)) = none := by decide

/-! ## Decoding: words written out from the encoding (30_encoding.md R55 to R58, R66; 95_test_vectors.md V29) -/

theorem test_decode_log : decode 0b00_0000000000_00000000#20 = .log ∧ decode 0x00001#20 = .log ∧ decode 0x3FFFF#20 = .log := by
  decide
theorem test_decode_ksch : decode 0b01_1010000010_00000000#20 = .ksch key ∧ decode 0b01_1010000010_11111111#20 = .ksch key ∧
    decode 0x7FFFF#20 = .ksch (List.replicate 10 true) := by decide
theorem test_decode_enc : decode 0b10_1010000010_10110101#20 = .enc block key ∧ decode 0xA82B5#20 = .enc block key ∧
    decode 0x80000#20 = .enc (List.replicate 8 false) (List.replicate 10 false) := by decide
theorem test_decode_dec : decode 0b11_1010000010_00011011#20 = .dec cipher key ∧ decode 0xE821B#20 = .dec cipher key ∧
    decode 0xFFFFF#20 = .dec (List.replicate 8 true) (List.replicate 10 true) := by decide
theorem test_encode_words : encode .log = some 0x00000#20 ∧ encode (.ksch key) = some 0x68200#20 ∧
    encode (.enc block key) = some 0xA82B5#20 ∧ encode (.dec cipher key) = some 0xE821B#20 := by decide
/-- The table's numbering: bit 0 is the least significant bit of the word. -/
theorem test_decodeTableWord : decodeTableWord 20 0xA82B5 = some (.enc block key) ∧ decodeTableWord 24 0x68200 = some (.ksch key) ∧
    decodeTableWord 24 0x100000 = none := by decide

/-! ## Datapath units (95_test_vectors.md V31 to V36; 40_bitvector_primitives.md R85) -/

theorem test_split : splitBits (bits 10 0b1000001100) 5 = .ok (bits 5 0b10000, bits 5 0b01100) ∧
    splitBits [] 0 = .ok ([], []) ∧ splitBits [] 1 = .error .invalidSplit ∧
    splitBits (bits 4 0b1011) 5 = .error .invalidSplit := by decide
theorem test_permute_std : permute key tablesStd.p10 = .ok (bits 10 0b1000001100) ∧
    permute (bits 10 0b0000111000) tablesStd.p8 = .ok (bits 8 0b10100100) ∧
    permute block tablesStd.ip = .ok (bits 8 0b01111100) ∧ permute (bits 8 0b00001111) tablesStd.fp = .ok cipher ∧
    permute (bits 4 0b1100) tablesStd.ep = .ok (bits 8 0b01101001) ∧
    permute (bits 4 0b0100) tablesStd.p4 = .ok (bits 4 0b1000) := by decide
theorem test_permute_edges : permute (bits 3 0b101) [] = .ok [] ∧ permute (bits 3 0b101) [4] = .error .lengthMismatch ∧
    permute (bits 3 0b101) [0] = .error .lengthMismatch ∧ permute (bits 2 0b10) [2, 2, 1] = .ok (bits 3 0b001) := by decide
theorem test_lcs : lcs (bits 5 0b11000) 2 = .ok (bits 5 0b00011) ∧ lcs (bits 5 0b10110) 4 = .ok (bits 5 0b01011) ∧
    lcs (bits 5 0b10110) 5 = .error .invalidShift ∧ lcs (bits 5 0b10110) 6 = .error .invalidShift ∧
    lcs [] 0 = .error .invalidShift := by decide
theorem test_xor : xorBits (bits 8 0b01101001) (bits 8 0b10100100) = .ok (bits 8 0b11001101) ∧
    xorBits (bits 4 0b1100) (bits 3 0b110) = .error .lengthMismatch := by decide
/-- S0 and S1 on the inputs 0000 to 1111, as numbers, in the order of rule R85. -/
theorem test_sbox_s0 : ((List.range 16).map fun x => sbox tablesStd.s0 (bits 4 x)) =
    [1, 3, 0, 2, 3, 1, 2, 0, 0, 3, 2, 1, 1, 3, 3, 2].map fun v => .ok (bits 2 v) := by decide
theorem test_sbox_s1 : ((List.range 16).map fun x => sbox tablesStd.s1 (bits 4 x)) =
    [0, 2, 1, 0, 2, 1, 3, 3, 3, 2, 0, 1, 1, 0, 0, 3].map fun v => .ok (bits 2 v) := by decide
theorem test_inverse : inverse tablesStd.ip = [4, 1, 3, 5, 7, 2, 8, 6] := by decide
theorem test_tables_check : tablesStd.ok = true ∧ badTables.ok = false := by decide
/-- 95_test_vectors.md V11, V12. -/
theorem test_key_schedule : keySchedule tablesStd key = .ok (bits 8 0b10100100, bits 8 0b01000011) ∧
    keySchedule tablesStd (bits 10 0b0010010111) = .ok (bits 8 0b00101111, bits 8 0b11101010) := by decide
/-- 95_test_vectors.md V15. -/
theorem test_fParts : fParts tablesStd (bits 4 0b1100) (bits 8 0b10100100) =
    .ok ⟨bits 8 0b01101001, bits 8 0b11001101, bits 4 0b0100, bits 4 0b1000⟩ := by decide

/-- 95_test_vectors.md V16. -/
theorem test_round : fk tablesStd (bits 4 0b0111) (bits 4 0b1100) (bits 8 0b10100100) = .ok (bits 4 0b1111) ∧
    feistelRound tablesStd (bits 8 0b01111100) (bits 8 0b10100100) = .ok (bits 8 0b11111100) ∧
    swapHalves (bits 8 0b11111100) = .ok (bits 8 0b11001111) := by decide

/-! ## One step of each command -/

/-- 95_test_vectors.md V27: the first LOG after reset. -/
theorem test_step_log_after_reset : observe (State.reset.withFetchWord 20 0x00000) = some (some (.okLog []), [0x00000], []) := by
  decide

/-- 95_test_vectors.md V20: the words of LOG after ENC. -/
theorem test_step_log_after_enc : (observe (afterEnc.withFetchWord 20 0x3FFFF)).map (·.2.1) =
    some [0x00014, 0x02A0C, 0x06838, 0x0A0A4, 0x0E883, 0x12043, 0x1607C, 0x1A069, 0x1E0CD, 0x21004, 0x25008, 0x2900F,
      0x2E0FC, 0x320CF, 0x360FF, 0x3A0BC, 0x3D005, 0x4100C, 0x45000, 0x4A00F, 0x4E01B] := by decide

/-- 95_test_vectors.md V23: KSCH, on any data bits. -/
theorem test_step_ksch : observe (State.reset.withFetchWord 20 0x682FF) =
    some (some (.okKeys (bits 8 0b10100100) (bits 8 0b01000011)), [0x0A443], []) := by decide

/-- 95_test_vectors.md V28, PROG5: a rejected KSCH leaves the trace under `clear` also. -/
theorem test_step_ksch_rejected : observe (afterEncClear.send (.command (.ksch (bits 9 0b101000001)))) =
    some (some (.err .lengthMismatch), [0x10000], afterEnc.trace.map fun e => (labelId e.label, e.value)) := by decide

/-- 95_test_vectors.md V20: ENC from reset. -/
theorem test_step_enc : observe (State.reset.withFetchWord 20 0xA82B5) =
    some (some (.okBlock cipher), [0x0001B],
      [(0, bits 10 0b1000001100), (1, bits 10 0b0000111000), (2, bits 8 0b10100100), (3, bits 10 0b0010000011),
       (4, bits 8 0b01000011), (5, bits 8 0b01111100), (6, bits 8 0b01101001), (7, bits 8 0b11001101), (8, bits 4 0b0100),
       (9, bits 4 0b1000), (10, bits 4 0b1111), (11, bits 8 0b11111100), (12, bits 8 0b11001111), (13, bits 8 0b11111111),
       (14, bits 8 0b10111100), (15, bits 4 0b0101), (16, bits 4 0b1100), (17, bits 4 0b0000), (18, bits 8 0b00001111),
       (19, bits 8 0b00011011)]) := by decide

/-- 95_test_vectors.md V28, PROG5: a rejected ENC keeps or empties the trace. -/
theorem test_step_enc_rejected :
    (observe (afterEnc.send (.command (.enc (bits 7 0b1011010) key)))).map (fun o => (o.1, o.2.2.length)) =
      some (some (.err .lengthMismatch), 20) ∧
    observe (afterEncClear.send (.command (.enc (bits 7 0b1011010) key))) =
      some (some (.err .lengthMismatch), [0x10000], []) := by decide

/-- 95_test_vectors.md V21: DEC on the instance that ran ENC. -/
theorem test_step_dec : observe (afterEnc.withFetchWord 20 0xE821B) =
    some (some (.okBlock block), [0x000B5],
      [(0, bits 10 0b1000001100), (1, bits 10 0b0000111000), (2, bits 8 0b10100100), (3, bits 10 0b0010000011),
       (4, bits 8 0b01000011), (5, bits 8 0b00001111), (6, bits 8 0b11111111), (7, bits 8 0b10111100), (8, bits 4 0b0101),
       (9, bits 4 0b1100), (10, bits 4 0b1100), (11, bits 8 0b11001111), (12, bits 8 0b11111100), (13, bits 8 0b01101001),
       (14, bits 8 0b11001101), (15, bits 4 0b0100), (16, bits 4 0b1000), (17, bits 4 0b0111), (18, bits 8 0b01111100),
       (20, bits 8 0b10110101)]) := by decide

/-- 95_test_vectors.md PROG5: a rejected DEC, here for an 11-bit key. -/
theorem test_step_dec_rejected :
    (observe (afterEnc.send (.command (.dec cipher (bits 11 0b10100000100))))).map (fun o => (o.1, o.2.2.length)) =
      some (some (.err .lengthMismatch), 20) ∧
    observe (afterEncClear.send (.command (.dec cipher (bits 11 0b10100000100)))) =
      some (some (.err .lengthMismatch), [0x10000], []) := by decide

/-- 70_reset_and_hazards.md R211: the reset event, which answers nothing. -/
theorem test_step_reset : observe (afterEnc.send .reset) = some (none, [], []) := by decide

/-- 40_bitvector_primitives.md R81: no core is built from a table set that fails the check. -/
theorem test_build : State.build badTables .keep = .error .tablesNotOk ∧ State.build tablesStd .keep = .ok State.reset := by
  decide

/-- 60_exceptions.md R203: a platform has at least one instance. -/
theorem test_platform : Platform.build configStd 0 = none ∧ Platform.build configStd 2 = some twoInstances := by decide

/-- 95_test_vectors.md V29: the status words of the errors, by 60_exceptions.md R186. -/
theorem test_status_errors : statusWord (.err .lengthMismatch) = 0x10000 ∧ statusWord (.err .invalidShift) = 0x20000 ∧
    statusWord (.err .invalidSplit) = 0x30000 := by decide

/-- 30_encoding.md R63: the labels in the order of their numbers. -/
theorem test_label_text : [Label.afterP10, .round1Sboxes, .finalCiphertext, .finalPlaintext].map (fun l => (labelId l, labelText l)) =
    [(0, "after P10"), (8, "round 1 S-boxes"), (19, "final ciphertext"), (20, "final plaintext")] := by decide

/-! ## Host procedures -/

/-- 95_test_vectors.md PROG2: the codec on `Hi`. -/
theorem test_text : (encryptAsciiToBlocks [72, 105] key State.reset).1 = .ok [bits 8 0b11100000, bits 8 0b11000111] ∧
    (decryptBlocksToAscii [bits 8 0b11100000, bits 8 0b11000111] key State.reset).1 = .ok [72, 105] ∧
    (encryptAsciiToBlocks [72, 256] key State.reset).1 = .error (.error .unsupportedCharacter) := by decide

/-- 95_test_vectors.md PROG3: the verdicts on key numbers 59 and 642. -/
theorem test_search_fragment :
    (runWorkers true [(block, cipher), (bits 8 0b01110010, bits 8 0b01110111)] twoInstances.config [[59], [642]]
      twoInstances.instances).1 = .ok [[], [642]] := by decide

/-- 95_test_vectors.md V3: eight contiguous shards of 128 keys; striped shards by the remainder. -/
theorem test_shards : 889 ∈ shard .contiguous 8 6 ∧ 889 ∈ shard .striped 8 1 := by simp [shard]

/-- 95_test_vectors.md PROG4: keys 0, 1 and 72. -/
theorem test_collisions_fragment : (collectCollisions block [0, 1, 72] [] State.reset).1 =
    .ok [(bits 8 0b01100001, [bits 10 0, bits 10 72]), (bits 8 0b10001000, [bits 10 1])] := by decide

/-- 45_host_procedures.md R178, on the row of 95_test_vectors.md PROG4, and the cut at 20 keys. -/
theorem test_report_rows : searchLines [key] = ["candidate_key_10bit".toList, "1010000010".toList] ∧
    collisionRow (bits 8 0b01100001, [bits 10 0, bits 10 72]) = "01100001,2,0000000000;0001001000".toList ∧
    (collisionRow (block, List.replicate 21 [true])).length = 8 + 1 + 2 + 1 + 39 := by decide

/-! ## Text form (30_encoding.md R64 to R66) -/

theorem test_assemble : assemble ["ENC 10110101, 1010000010 # textbook key".toList, "LOG".toList, "".toList,
      "encrypt(\"10110101\", \"1010000010\")".toList, "KSCH 1010000010".toList] =
    .ok [0xA82B5, 0x00000, 0xA82B5, 0x68200] := by decide
theorem test_assemble_refuses : assemble ["LOG".toList, "ENC 1011010, 1010000010".toList] = .error (2, .malformedOperand) ∧
    assemble ["ADD 1".toList] = .error (1, .badLine) := by decide

/-! ## Witnesses: the hypotheses of the statements are met -/

theorem witness_DecodeOfEncodeIsTheCommand : Instr.log.wf = true ∧ (Instr.ksch key).wf = true ∧
    (Instr.enc block key).wf = true ∧ (Instr.dec block key).wf = true := by decide

/-- The words at the ends of each opcode, and the outermost operand bits. -/
theorem witness_DecodeFollowsTheOpcodeTable :
    (0x3FFFF#20 &&& 0xC0000#20 = 0x00000#20) ∧ (0x40000#20 &&& 0xC0000#20 = 0x40000#20) ∧
    (0x7FFFF#20 &&& 0xC0000#20 = 0x40000#20) ∧ (0x80000#20 &&& 0xC0000#20 = 0x80000#20) ∧
    (0xBFFFF#20 &&& 0xC0000#20 = 0x80000#20) ∧ (0xC0000#20 &&& 0xC0000#20 = 0xC0000#20) ∧
    (keyOperand 0x20000#20)[0]? = some true ∧ (keyOperand 0x00100#20)[9]? = some true ∧
    (blockOperand 0x00080#20)[0]? = some true ∧ (blockOperand 0x00001#20)[7]? = some true := by decide

theorem witness_SplitKeepsEveryBitOrFails : block.length < 9 ∧ 8 ≤ block.length ∧ 0 ≤ block.length := by decide

theorem witness_PermuteSelectsTheNamedPositions :
    (∃ p ∈ [3, 0], p < 1 ∨ block.length < p) ∧ (∃ p ∈ [9], p < 1 ∨ block.length < p) ∧
    (∀ p ∈ [1, 8], 1 ≤ p ∧ p ≤ block.length) ∧ [1, 8][1]? = some 8 := by decide

theorem witness_CircularShiftRotatesOrFails : block.length ≤ 8 ∧ 7 < block.length ∧ 0 < block.length := by decide

theorem witness_XorIsBitwiseOrFails : block.length ≠ key.length ∧ block.length = cipher.length ∧
    block[7]? = some true ∧ cipher[7]? = some true := by decide

theorem witness_XorLaws : block.length = cipher.length ∧ cipher.length = block.length := by decide

theorem witness_CircularShiftsCompose : 7 < block.length ∧ 0 < block.length := by decide

theorem witness_SboxReadsRowAndColumn : sboxOk tablesStd.s0 = true ∧ sboxOk tablesStd.s1 = true ∧ (bits 3 0).length ≠ 4 ∧
    (bits 5 0).length ≠ 4 := by decide

theorem witness_InverseTableUndoesPermute : tablesStd.ip.length = 8 ∧ eachOnce tablesStd.ip 8 = true ∧
    tablesStd.ip[7]? = some 7 ∧ block.length = 8 := by decide

theorem witness_KeyScheduleBitByBit : (bits 9 0).length ≠ 10 ∧ (bits 11 0).length ≠ 10 ∧ tablesStd.ok = true ∧
    key.length = 10 ∧ tablesStd.p10[9]? = some 6 ∧ tablesStd.p8[7]? = some 9 := by decide

theorem witness_StandardKeyScheduleClosedForm : keyOk key ∧
    keySchedule tablesStd key = keySchedule tablesStd (bits 10 0b1010000010) := by decide

theorem witness_StandardEqualRoundKeysAreEight : keyOk key ∧ blockOk block ∧
    keySchedule tablesStd (bits 10 0b0001100000) = .ok (bits 8 0b00010000, bits 8 0b00010000) := by decide

theorem witness_KeyedFunctionBitByBit : tablesStd.ok = true ∧ key.length ≠ 8 ∧ (bits 4 0b1100).length = 4 ∧
    cipher.length = 8 ∧ tablesStd.ep[7]? = some 1 ∧ tablesStd.p4[3]? = some 1 := by decide

theorem witness_RoundReplacesTheLeftHalf : tablesStd.ok = true ∧ (bits 4 0b0111).length = 4 ∧ (bits 4 0b1100).length = 4 ∧
    cipher.length = 8 := by decide

theorem witness_SwapOnceBetweenTheRounds : tablesStd.ok = true ∧ block.length = 8 ∧ cipher.length = 8 := by decide

theorem witness_RoundIsItsOwnInverse : tablesStd.ok = true ∧ block.length = 8 ∧ cipher.length = 8 := by decide

theorem witness_FeistelInvertedByReversedKeys : tablesStd.ok = true ∧ block.length = 8 ∧ (bits 8 0b10100100).length = 8 ∧
    (bits 8 0b01000011).length = 8 := by decide

theorem witness_FeistelIsBijective : tablesStd.ok = true ∧ (bits 8 0b10100100).length = 8 ∧ (bits 8 0b01000011).length = 8 ∧
    blockOk block ∧ feistel tablesStd block (bits 8 0b10100100) (bits 8 0b01000011) = .ok cipher := by decide

theorem witness_EncRunsAndAnswersTheBlock : blockOk block ∧ keyOk key := by decide

theorem witness_DecRunsAndAnswersTheBlock : blockOk cipher ∧ keyOk key := by decide

theorem witness_KschRunsAndAnswersTheRoundKeys : keyOk key := by decide

theorem witness_LogRunsAndAnswersTheTrace : exec .log afterEnc = .next (after .log afterEnc) := rfl

theorem witness_MalformedOperandsAreRejected : ¬ keyOk (bits 9 0) ∧ ¬ keyOk (bits 11 0) ∧
    ¬ (blockOk (bits 7 0) ∧ keyOk key) ∧ ¬ (blockOk (bits 9 0) ∧ keyOk key) ∧ ¬ (blockOk block ∧ keyOk (bits 11 0)) ∧
    afterEnc.config.traceOnReject = .keep ∧ afterEncClear.config.traceOnReject = .clear := by decide

theorem witness_OnlyLengthMismatchIsReachable : (Instr.enc block key).wf = true ∧
    (Instr.enc block (bits 9 0)).wf = false ∧
    (issue (.enc block (bits 9 0)) afterEnc).1 = some (.err .lengthMismatch) := by decide

theorem witness_CommandsLeaveTheRestAlone : exec .log afterEnc = .next (after .log afterEnc) ∧
    exec (.ksch key) afterEnc = .next (after (.ksch key) afterEnc) ∧
    exec (.enc cipher key) afterEnc = .next (after (.enc cipher key) afterEnc) ∧
    exec (.dec cipher key) afterEnc = .next (after (.dec cipher key) afterEnc) := ⟨rfl, rfl, rfl, rfl⟩

theorem witness_OnlyLogDependsOnTheState : (Instr.ksch key) ≠ .log ∧ State.reset.config.tables = afterEnc.config.tables ∧
    State.reset.trace ≠ afterEnc.trace ∧ (issue (.ksch key) State.reset).1 = (issue (.ksch key) afterEnc).1 ∧
    (issue .log State.reset).1 ≠ (issue .log afterEnc).1 := by decide

theorem witness_NextBlockCommandDestroysTheTrace : State.reset.config.tables = afterEnc.config.tables ∧
    State.reset.trace ≠ afterEnc.trace ∧ blockOk cipher ∧ keyOk key := by decide

theorem witness_DecOfEncIsThePlaintext : tablesStd.ok = true ∧
    afterEnc.config.tables = State.reset.config.tables ∧ blockOk block ∧ keyOk key := by decide

theorem witness_EncOfDecIsTheCiphertext :
    afterEnc.config.tables = State.reset.config.tables ∧ blockOk cipher ∧ keyOk key := by decide

theorem witness_EqualRoundKeysMakeEncAndDecAgree : blockOk block ∧ keyOk (bits 10 0) ∧
    keySchedule afterEnc.config.tables (bits 10 0) = .ok (bits 8 0, bits 8 0) := by decide

theorem witness_RepeatedCommandChangesNothing : exec (.dec cipher key) afterEnc = .next (after (.dec cipher key) afterEnc) ∧
    exec (.enc [] key) afterEncClear = .next (after (.enc [] key) afterEncClear) := ⟨rfl, rfl⟩

theorem witness_KschAgreesWithTheTrace : blockOk cipher ∧ keyOk key := by decide

/-- Both rows of the statement's table: ENC with K1 then K2, DEC with K2 then K1. -/
theorem witness_TraceRecordsEveryStep : blockOk block ∧ keyOk key ∧
    keySchedule afterEnc.config.tables key = .ok (bits 8 0b10100100, bits 8 0b01000011) := by decide

theorem witness_StepRunsTheNextCommand :
    (afterEnc.send (.word 0xE821B)).pending = .word 0xE821B :: afterEnc.pending ∧
    (afterEnc.send (.command (.ksch []))).pending = .command (.ksch []) :: afterEnc.pending := by decide

theorem witness_ResetEventEmptiesTheTrace :
    (afterEnc.send .reset).pending = .reset :: afterEnc.pending ∧ afterEnc.pending = [] := by decide

theorem witness_BadTablesAreRefused : badTables.ok = false ∧ tablesStd.ok = true := by decide

theorem inv_reset : Inv State.reset := ⟨.inl rfl, fun r h => by cases h⟩

theorem inv_afterEnc : Inv afterEnc := by
  refine ⟨.inr ?_, ?_⟩
  · obtain ⟨fe, h, -⟩ := blockParts_succeeds (T := tablesStd) (order := encryptOrder) (b := block) (k := key) (.inl rfl)
      (by decide) (by decide) (by decide)
    refine ⟨block, key, _, fe, by decide, by decide, .inl ⟨h, ?_⟩⟩
    show (blockCommand .finalCiphertext encryptOrder block key State.reset).trace = _
    rw [blockCommand_of_parts (by decide) (by decide) h]
    rfl
  · intro r h
    obtain rfl : Response.okBlock cipher = r := by
      have hr : afterEnc.response = some (.okBlock cipher) := by decide
      rw [hr] at h; injection h
    show blockOk cipher
    decide

/-- A state with the trace of V20 and the next command waiting, and its step. -/
theorem witness_StepKeepsTheInvariant : Inv (afterEnc.send (.word 0xE821B)) ∧
    step (afterEnc.send (.word 0xE821B)) = .next (after (.dec cipher key) afterEnc) :=
  ⟨⟨inv_afterEnc.traceEmptyOrBlock, inv_afterEnc.responseFormed⟩, rfl⟩

theorem witness_TraceIsEmptyOrHasTwentyEntries : Inv State.reset ∧ Inv afterEnc ∧ State.reset.trace.length = 0 ∧
    afterEnc.trace.length = 20 := ⟨inv_reset, inv_afterEnc, by decide, by decide⟩

theorem witness_StatusWordCarriesTheResponse : responseOk (.okBlock block) ∧ responseOk (.okKeys block cipher) ∧
    responseOk (.okLog []) ∧ responseOk (.okLog afterEnc.trace) ∧ responseOk (.err .lengthMismatch) :=
  ⟨by show blockOk block; decide, ⟨by decide, by decide⟩, .inl rfl,
    .inr (.inl (by decide)), rfl⟩

theorem witness_EntryWordCarriesTheEntry : (TraceEntry.mk .round1P4 (bits 4 0b1000)).value.length = 4 ∧
    (TraceEntry.mk .k1 block).value.length = 8 ∧ (TraceEntry.mk .afterP10 key).value.length = 10 := by decide

theorem witness_PlatformsAreIdenticalInstances : 0 < 1 ∧ (State.ofConfig configStd).own ∈ twoInstances.instances := by decide

theorem witness_InstancesDoNotInteract : (1 : Nat) ≠ 0 ∧ twoInstances.instances[1]? = some State.reset.own ∧
    step (State.reset.own.on twoInstances.config) = .next State.reset ∧ [0, 1].Perm [1, 0] :=
  ⟨by decide, by decide, rfl, by decide⟩

theorem witness_TextRoundTrip :
    afterEnc.config.tables = State.reset.config.tables ∧ keyOk key ∧ ∀ cp ∈ [0, 72, 255], cp ≤ 255 := by decide

theorem witness_UnsupportedCharacterStopsTheText : keyOk key ∧
    (∀ c ∈ [72, 255], c ≤ 255) ∧ 255 < 256 := by decide

theorem witness_SearchFindsExactlyTheKeys : [List.range 1024].length ≤ twoInstances.instances.length ∧
    (∀ pc ∈ [(block, cipher)], blockOk pc.1) ∧ ∀ n, n < 1024 → ∃ sh ∈ [List.range 1024], n ∈ sh :=
  ⟨by decide, by decide, fun _ h => ⟨_, List.mem_singleton.mpr rfl, List.mem_range.mpr h⟩⟩

theorem witness_ShardsPartitionTheKeyspace : 0 < (SearchPlan.mk false 0 .contiguous true).workerCount ∧
    0 < (SearchPlan.mk true 1 .striped true).workerCount ∧ 0 < (SearchPlan.mk true 16 .contiguous false).workerCount ∧
    0 ∈ shard .contiguous 16 0 ∧ 1023 ∈ shard .contiguous 16 15 ∧ 1023 ∈ shard .striped 16 15 := by
  simp [shard, SearchPlan.workerCount]

theorem witness_CollisionMapIsComplete : blockOk block := by decide

end Sys2Proof.Tests
end

section
/-! SUPPORT. The inverse of a permutation table undoes it, in both orders (40_bitvector_primitives.md rule R82). -/

namespace Sys2Proof

/-- A table that contains each of the positions 1 to `m` once names no other position. -/
theorem tableOk_of_eachOnce {table : PermTable} {m : Nat} (hl : table.length = m) (h : eachOnce table m = true) :
    tableOk table m m = true := by
  rw [tableOk_iff]
  refine ⟨hl, fun p hp => ?_⟩
  obtain ⟨j, hj, rfl⟩ : ∃ j < m, j + 1 = p := by
    simpa using (perm_of_eachOnce hl h).mem_iff.mpr hp
  omega

section
variable {table : PermTable} {b : Bitstring} (hl : table.length = b.length) (h : eachOnce table b.length = true)
include hl h

/-- Bit `j` goes to the index at which the table names position `j + 1`, which is where the inverse looks for it. -/
theorem selectBits_inverse_of_selectBits : selectBits (selectBits b table) (inverse table) = b := by
  have hin := (tableOk_iff.mp (tableOk_of_eachOnce hl h)).2
  have hinv := (tableOk_iff.mp (tableOk_inverse hl h)).2
  refine List.ext_getElem? fun j => ?_
  by_cases hj : j < b.length
  · have hmem : j + 1 ∈ table := List.count_pos_iff.mp (by rw [count_one_of_eachOnce h hj]; omega)
    have hpos : table[table.idxOf (j + 1)]? = some (j + 1) := List.getElem?_idxOf hmem
    rw [getElem?_selectBits (by simpa [hl] using hinv) (getElem?_inverse (hl ▸ hj)), Nat.add_sub_cancel,
      getElem?_selectBits hin hpos, Nat.add_sub_cancel]
  · rw [List.getElem?_eq_none (by simp; omega), List.getElem?_eq_none (by omega)]

/-- The table names the position of index `i` at index `i` only, for it names each position once. -/
theorem selectBits_of_selectBits_inverse : selectBits (selectBits b (inverse table)) table = b := by
  have hin := (tableOk_iff.mp (tableOk_of_eachOnce hl h)).2
  have hinv := (tableOk_iff.mp (tableOk_inverse hl h)).2
  refine List.ext_getElem? fun i => ?_
  by_cases hi : i < table.length
  · obtain ⟨hlo, hhi⟩ := hin _ (List.getElem_mem hi)
    have hentry : (inverse table)[table[i] - 1]? = some (i + 1) := by
      rw [getElem?_inverse (by omega), Nat.sub_add_cancel hlo, (nodup_of_eachOnce hl h).idxOf_getElem i hi]
    rw [getElem?_selectBits (by simpa [hl] using hin) (List.getElem?_eq_getElem hi), getElem?_selectBits hinv hentry,
      Nat.add_sub_cancel]
  · rw [List.getElem?_eq_none (by simp; omega), List.getElem?_eq_none (by omega)]

end

end Sys2Proof
end

section
/-! SUPPORT. The block transform is a chain of five operations on an 8-bit state, each of which another one takes back;
so the chain under reversed round keys takes back the chain (42_feistel_datapath.md rules R120, R121, R126). -/

namespace Sys2Proof

/-- On every 8-bit state `f` answers an 8-bit state, from which `g` answers the first one. -/
def Undoes (g f : Bitstring → Except ErrorKind Bitstring) : Prop :=
  ∀ t : Bitstring, t.length = 8 → ∃ u, f t = .ok u ∧ u.length = 8 ∧ g u = .ok t

theorem Undoes.comp {f f' g g' : Bitstring → Except ErrorKind Bitstring} (h : Undoes g f) (h' : Undoes g' f') :
    Undoes (fun t => g' t >>= g) (fun t => f t >>= f') := by
  intro t ht
  obtain ⟨u, hf, hu, hg⟩ := h t ht
  obtain ⟨v, hf', hv, hg'⟩ := h' u hu
  exact ⟨v, by simp [hf, hf', bind, Except.bind], hv, by simp [hg, hg', bind, Except.bind]⟩

/-- FP takes back IP (42_feistel_datapath.md rule R122). -/
theorem fp_undoes_ip {T : Tables} (hT : T.ok = true) : Undoes (permute · T.fp) (permute · T.ip) := by
  intro t ht
  obtain ⟨-, -, hip, honce, -⟩ := Tables.ok_parts hT
  have hu : (selectBits t T.ip).length = 8 := length_select_of_tableOk hip
  refine ⟨selectBits t T.ip, permute_of_tableOk hip ht, hu, ?_⟩
  show permute _ T.fp = _
  rw [permute_of_tableOk (tableOk_fp hT) hu, Tables.fp,
    selectBits_inverse_of_selectBits ((tableOk_iff.mp hip).1.trans ht.symm) (ht ▸ honce)]

/-- IP takes back FP (42_feistel_datapath.md rule R122). -/
theorem ip_undoes_fp {T : Tables} (hT : T.ok = true) : Undoes (permute · T.ip) (permute · T.fp) := by
  intro t ht
  obtain ⟨-, -, hip, honce, -⟩ := Tables.ok_parts hT
  have hu : (selectBits t T.fp).length = 8 := length_select_of_tableOk (tableOk_fp hT)
  refine ⟨selectBits t T.fp, permute_of_tableOk (tableOk_fp hT) ht, hu, ?_⟩
  show permute _ T.ip = _
  rw [permute_of_tableOk hip hu, Tables.fp,
    selectBits_of_selectBits_inverse ((tableOk_iff.mp hip).1.trans ht.symm) (ht ▸ honce)]

/-- A round takes itself back: the right half passes through, so `F` gives the same bits again, and adding them twice to
the left half leaves it (42_feistel_datapath.md rule R121). -/
theorem feistelRound_undoes_itself {T : Tables} {k : Bitstring} (hT : T.ok = true) (hk : k.length = roundKeyW) :
    Undoes (feistelRound T · k) (feistelRound T · k) := by
  intro t ht
  obtain ⟨l, r, rfl, hl, hr⟩ := exists_halves ht
  obtain ⟨q, hq, hql⟩ := keyedF_succeeds hT hr hk
  have hnew : (List.zipWith Bool.xor q l).length = halfW := by simp [hql, hl]
  refine ⟨List.zipWith Bool.xor q l ++ r, feistelRound_append hl hq hql, by simp [hql, hl, hr], ?_⟩
  show feistelRound T _ k = _
  rw [feistelRound_append hnew hq hql, zipWith_xor_cancel (hql.trans hl.symm)]

/-- The swap takes itself back (42_feistel_datapath.md rule R120). -/
theorem swapHalves_undoes_itself : Undoes swapHalves swapHalves := by
  intro t ht
  obtain ⟨l, r, rfl, hl, hr⟩ := exists_halves ht
  exact ⟨r ++ l, swapHalves_append hl, by simp [hl, hr], swapHalves_append hr⟩

/-- The block transform without the names of its values: IP, a round, the swap, a round, FP
(42_feistel_datapath.md rule R124). -/
theorem feistel_eq_chain (T : Tables) (b ka kb : Bitstring) :
    feistel T b ka kb = (do
      let ip ← permute b T.ip
      let st1 ← feistelRound T ip ka
      let sw ← swapHalves st1
      let st2 ← feistelRound T sw kb
      permute st2 T.fp) := by
  simp only [feistel, feistelParts, feistelRound, swapHalves, fk, keyedF, bind_assoc, pure_bind, bind_pure]

/-- The chain read backwards is the chain with the round keys reversed (42_feistel_datapath.md rule R126). -/
theorem feistel_undoes_reversed {T : Tables} {ka kb : Bitstring} (hT : T.ok = true) (ha : ka.length = roundKeyW)
    (hb : kb.length = roundKeyW) : Undoes (feistel T · kb ka) (feistel T · ka kb) := by
  have chain := (fp_undoes_ip hT).comp <| (feistelRound_undoes_itself hT ha).comp <|
    swapHalves_undoes_itself.comp <| (feistelRound_undoes_itself hT hb).comp (ip_undoes_fp hT)
  simpa only [feistel_eq_chain, bind_assoc] using chain

/-- `decrypt` takes back `encrypt` under the same key (42_feistel_datapath.md rule R131). -/
theorem decryptBlock_undoes_encryptBlock {T : Tables} {k : Bitstring} (hT : T.ok = true) (hk : keyOk k) :
    Undoes (decryptBlock T · k) (encryptBlock T · k) := by
  obtain ⟨-, -, -, -, -, -, h1, -, -, -, h2⟩ := keyPartsOf_lengths hT k
  simpa only [encryptBlock_eq hT hk, decryptBlock_eq hT hk] using feistel_undoes_reversed hT h1 h2

end Sys2Proof
end

section
/-! SUPPORT. The response of a command, from its operands and the tables (43_commands.md rules R143, R145, R147). -/

namespace Sys2Proof.Machine

theorem exec_enc_answers {b k c : Bitstring} {s : State} (hb : blockOk b) (hk : keyOk k)
    (hc : encryptBlock s.config.tables b k = .ok c) :
    ∃ t, exec (.enc b k) s = .next t ∧ t.response = some (.okBlock c) := by
  obtain ⟨fe, hp, -⟩ := blockParts_succeeds (.inl rfl) s.config.tablesOk hb hk
  obtain rfl : fe.out = c := by simpa [encryptBlock_of_parts hp] using hc
  exact ⟨_, exec_enc b k s, by rw [blockCommand_of_parts hb hk hp, State.respond_response]⟩

theorem exec_dec_answers {b k c : Bitstring} {s : State} (hb : blockOk b) (hk : keyOk k)
    (hc : decryptBlock s.config.tables b k = .ok c) :
    ∃ t, exec (.dec b k) s = .next t ∧ t.response = some (.okBlock c) := by
  obtain ⟨fe, hp, -⟩ := blockParts_succeeds (.inr rfl) s.config.tablesOk hb hk
  obtain rfl : fe.out = c := by simpa [decryptBlock_of_parts hp] using hc
  exact ⟨_, exec_dec b k s, by rw [blockCommand_of_parts hb hk hp, State.respond_response]⟩

section
variable {s s' : State} (h : s.config.tables = s'.config.tables)
include h

theorem blockCommand_response_of_same_tables {lab : Label} {order : KeyParts → Bitstring × Bitstring}
    (ho : roundKeyOrder order) (b k : Bitstring) :
    (blockCommand lab order b k s).response = (blockCommand lab order b k s').response := by
  by_cases hwf : blockOk b ∧ keyOk k
  · obtain ⟨hb, hk⟩ := hwf
    obtain ⟨fe, hp, -⟩ := blockParts_succeeds ho s.config.tablesOk hb hk
    rw [blockCommand_of_parts hb hk hp, blockCommand_of_parts hb hk (h ▸ hp), State.respond_response,
      State.respond_response]
  · rw [blockCommand_rejects hwf, blockCommand_rejects hwf, State.rejectBlock_response, State.rejectBlock_response]

theorem exec_ksch_response_of_same_tables {k : Bitstring} {t t' : State} (ht : exec (.ksch k) s = .next t)
    (ht' : exec (.ksch k) s' = .next t') : t.response = t'.response := by
  by_cases hk : keyOk k
  · rw [exec_ksch_of_wf hk] at ht ht'
    cases ht; cases ht'
    simp [h]
  · rw [exec_ksch_rejects hk] at ht ht'
    cases ht; cases ht'
    simp

end

end Sys2Proof.Machine
end

section
/-! The statements of 00_scope.md. -/

namespace Sys2Proof.Machine

/-- Settles O32: KSCH, ENC and DEC answer from the operands and the tables; LOG answers the trace itself. -/
theorem onlyLogDependsOnTheState : Obligations.OnlyLogDependsOnTheState := by
  refine ⟨fun i s s' t t' hi h ht ht' => ?_, fun s s' t t' ht ht' => ?_⟩
  · cases i with
    | log => exact absurd rfl hi
    | ksch k => exact exec_ksch_response_of_same_tables h ht ht'
    | enc b k =>
      rw [exec_enc] at ht ht'
      cases ht; cases ht'
      exact blockCommand_response_of_same_tables h (.inl rfl) b k
    | dec b k =>
      rw [exec_dec] at ht ht'
      cases ht; cases ht'
      exact blockCommand_response_of_same_tables h (.inr rfl) b k
  · rw [exec_log] at ht ht'
    cases ht; cases ht'
    simp

/-- Settles O34: `decrypt` takes back `encrypt`, and on the machine ENC and DEC answer what these functions give. -/
theorem decOfEncIsThePlaintext : Obligations.DecOfEncIsThePlaintext := by
  refine ⟨fun T b k hT hb hk => ?_, fun b k s s' hs hb hk => ?_⟩
  · obtain ⟨c, hc, -, hd⟩ := decryptBlock_undoes_encryptBlock hT hk b hb
    simp only [hc, bind, Except.bind]
    exact hd
  · obtain ⟨c, hc, hcl, hd⟩ := decryptBlock_undoes_encryptBlock s.config.tablesOk hk b hb
    obtain ⟨t, ht, hr⟩ := exec_enc_answers hb hk hc
    obtain ⟨t', ht', hr'⟩ := exec_dec_answers (s := s') hcl hk (hs ▸ hd)
    exact ⟨c, t, t', ht, hr, ht', hr'⟩

end Sys2Proof.Machine
end

section
/-! SUPPORT. What the datapath units answer outside the operands CORE gives them, and their answers bit by bit
(40_bitvector_primitives.md rules R77, R79, R80). -/

namespace Sys2Proof

theorem splitBits_of_gt {b : Bitstring} {n : Nat} (h : b.length < n) : splitBits b n = .error .invalidSplit :=
  if_pos h

theorem lcs_of_ge {b : Bitstring} {n : Nat} (h : b.length ≤ n) : lcs b n = .error .invalidShift :=
  if_pos h

theorem xorBits_of_length_ne {a b : Bitstring} (h : a.length ≠ b.length) : xorBits a b = .error .lengthMismatch :=
  if_neg h

theorem lcs_zero {b : Bitstring} (h : 0 < b.length) : lcs b 0 = .ok b := by
  rw [lcs_of_lt h, List.drop_zero, List.take_zero, List.append_nil]

theorem length_rotated {b : Bitstring} {n : Nat} (h : n ≤ b.length) : (b.drop n ++ b.take n).length = b.length := by
  simp [h]

theorem xorBits_self (a : Bitstring) : xorBits a a = .ok (List.replicate a.length false) := by
  rw [xorBits_of_length rfl, zipWith_xor_self]

theorem xorBits_zeros (a : Bitstring) : xorBits a (List.replicate a.length false) = .ok a := by
  rw [xorBits_of_length List.length_replicate.symm, zipWith_xor_zero]

/-- An output bit is 1 exactly when the two input bits differ. -/
theorem getElem?_zipWith_xor {a b : Bitstring} {i : Nat} {x y : Bool} (hx : a[i]? = some x) (hy : b[i]? = some y) :
    (List.zipWith Bool.xor a b)[i]? = some (if x ≠ y then true else false) := by
  rw [List.getElem?_zipWith, hx, hy]
  cases x <;> cases y <;> rfl

end Sys2Proof
end

section
/-! The statements of 40_bitvector_primitives.md. -/

namespace Sys2Proof

/-- Settles O9: up to the full length the answer is the rotation, whose bits `getElem?_rotated` names. -/
theorem circularShiftRotatesOrFails : Obligations.CircularShiftRotatesOrFails := by
  refine ⟨fun b n => ⟨lcs_of_ge, fun hn => ?_, lcs_zero, lcs_of_ge n.zero_le⟩, by decide, by decide⟩
  exact ⟨_, lcs_of_lt hn, length_rotated hn.le, rfl, fun _ hi => getElem?_rotated hn hi⟩

/-- Settles O10: on equal lengths the answer is the bitwise `Bool.xor`. -/
theorem xorIsBitwiseOrFails : Obligations.XorIsBitwiseOrFails := by
  refine ⟨fun a b => ⟨xorBits_of_length_ne, fun h => ?_, xorBits_self a, xorBits_zeros a⟩, by decide, by decide⟩
  exact ⟨_, xorBits_of_length h, by simp [h], fun _ _ _ => getElem?_zipWith_xor⟩

/-- Settles O7: the parts are the first `n` bits and the rest, which join to the whole. -/
theorem splitKeepsEveryBitOrFails : Obligations.SplitKeepsEveryBitOrFails := by
  refine ⟨fun b n => ⟨splitBits_of_gt, fun hn => ?_, ?_, ?_⟩, by decide⟩
  · exact ⟨_, _, splitBits_of_le hn, List.length_take_of_le hn, List.length_drop, List.take_append_drop n b⟩
  · exact splitBits_append (a := []) rfl
  · simpa only [List.append_nil] using splitBits_append (a := b) (b := []) rfl

end Sys2Proof
end

section
/-! The statements of 42_feistel_datapath.md on the round and the swap. -/

namespace Sys2Proof

/-- `fk` adds the keyed function of the right half to the left half (42_feistel_datapath.md rule R118). -/
theorem fk_of_keyedF {T : Tables} {l r k q : Bitstring} (hq : keyedF T r k = .ok q) (hl : q.length = l.length) :
    fk T l r k = .ok (List.zipWith Bool.xor q l) := by
  rw [← xorBits_of_length hl]
  simp only [fk, hq, bind, Except.bind]

/-- Settles O19: with `q = F(R, K)` the new left half is `q` xor `L`; the right half is the same, so a second `fk` adds
`q` again and gives `L` back. -/
theorem roundReplacesTheLeftHalf : Obligations.RoundReplacesTheLeftHalf := by
  intro T l r k hT hl hr hk
  obtain ⟨q, hq, hql⟩ := keyedF_succeeds hT hr hk
  have hlen : q.length = l.length := hql.trans hl.symm
  have hnew : (List.zipWith Bool.xor q l).length = halfW := by simp [hql, hl]
  have hback : fk T (List.zipWith Bool.xor q l) r k = .ok l := by
    rw [fk_of_keyedF hq (hql.trans hnew.symm), zipWith_xor_cancel hlen]
  exact ⟨q, _, hq, xorBits_of_length hlen, fk_of_keyedF hq hlen, hnew, hback, feistelRound_append hl hq hql⟩

/-- Settles O20: on a state given by its halves the swap is `swapHalves_append`, in both directions, and
`feistel_eq_chain` names the one swap of the block transform. -/
theorem swapOnceBetweenTheRounds : Obligations.SwapOnceBetweenTheRounds := by
  refine ⟨fun t ht => ?_, fun T b ka kb _ _ _ _ => feistel_eq_chain T b ka kb, by decide⟩
  obtain ⟨a, c, rfl, ha, hc⟩ := exists_halves ht
  exact ⟨a, c, splitBits_append ha, swapHalves_append ha, swapHalves_append hc⟩

end Sys2Proof
end

section
/-! SUPPORT. The word of each well-formed command, and what a word and its command say about each other
(30_encoding.md rules R55 to R60). -/

namespace Sys2Proof

theorem wf_ksch_iff {k : Bitstring} : (Instr.ksch k).wf = true ↔ keyOk k := decide_eq_true_iff

theorem wf_enc_iff {b k : Bitstring} : (Instr.enc b k).wf = true ↔ blockOk b ∧ keyOk k := by simp [Instr.wf]

theorem wf_dec_iff {b k : Bitstring} : (Instr.dec b k).wf = true ↔ blockOk b ∧ keyOk k := by simp [Instr.wf]

theorem encode_log : encode .log = some (packCommand 0 0 0) := rfl

theorem encode_ksch {k : Bitstring} (h : keyOk k) :
    encode (.ksch k) = some (packCommand 1 (BitVec.ofNat 10 (val k)) 0) := if_pos (wf_ksch_iff.mpr h)

theorem encode_enc {b k : Bitstring} (hb : blockOk b) (hk : keyOk k) :
    encode (.enc b k) = some (packCommand 2 (BitVec.ofNat 10 (val k)) (BitVec.ofNat 8 (val b))) :=
  if_pos (wf_enc_iff.mpr ⟨hb, hk⟩)

theorem encode_dec {b k : Bitstring} (hb : blockOk b) (hk : keyOk k) :
    encode (.dec b k) = some (packCommand 3 (BitVec.ofNat 10 (val k)) (BitVec.ofNat 8 (val b))) :=
  if_pos (wf_dec_iff.mpr ⟨hb, hk⟩)

theorem encode_eq_none_iff {i : Instr} : encode i = none ↔ i.wf = false := by simp [encode]

/-- Decoding never meets a malformed operand (30_encoding.md rule R59). -/
theorem decode_wf (w : CommandWord) : (decode w).wf = true := by
  have hb := length_blockOperand w
  have hk := length_keyOperand w
  rcases opField_cases w with h | h | h | h
  · rw [decode_of_op_log h]; rfl
  · rw [decode_of_op_ksch h, wf_ksch_iff]; exact hk
  · rw [decode_of_op_enc h, wf_enc_iff]; exact ⟨hb, hk⟩
  · rw [decode_of_op_dec h, wf_dec_iff]; exact ⟨hb, hk⟩

/-- The decoder keeps the opcode (30_encoding.md rule R56). -/
theorem opcode_decode (w : CommandWord) : opcode (decode w) = opField w := by
  rcases opField_cases w with h | h | h | h
  · rw [decode_of_op_log h, h]; rfl
  · rw [decode_of_op_ksch h, h]; rfl
  · rw [decode_of_op_enc h, h]; rfl
  · rw [decode_of_op_dec h, h]; rfl

theorem keyOperand_inj {w w' : CommandWord} : keyOperand w = keyOperand w' ↔ keyField w = keyField w' :=
  ⟨fun h => by rw [← ofNat_val_keyOperand, h, ofNat_val_keyOperand], fun h => by rw [keyOperand, h, keyOperand]⟩

theorem blockOperand_inj {w w' : CommandWord} : blockOperand w = blockOperand w' ↔ dataField w = dataField w' :=
  ⟨fun h => by rw [← ofNat_val_blockOperand, h, ofNat_val_blockOperand], fun h => by rw [blockOperand, h, blockOperand]⟩

/-- The mask of the opcode table keeps the opcode and clears the operand fields (spec/opcode_table.json). -/
theorem opField_of_masked {w : CommandWord} {op : BitVec 2} (h : w &&& 0xC0000#20 = packCommand op 0 0) :
    opField w = op := by
  have hmask : opField (w &&& 0xC0000#20) = opField w := by
    rw [opField, BitVec.extractLsb'_and]
    exact BitVec.and_allOnes
  rw [← hmask, h, opField_packCommand]

/-- `key_operand[i]` is word bit `17 - i` (30_encoding.md rule R57). -/
theorem getElem?_keyOperand (w : CommandWord) {i : Nat} (h : i < 10) :
    (keyOperand w)[i]? = some (w.getLsbD (17 - i)) := by
  rw [keyOperand, getElem?_bits _ _ _ h, BitVec.testBit_toNat, keyField, BitVec.getLsbD_extractLsb',
    decide_eq_true (show 10 - 1 - i < 10 by omega), Bool.true_and, show 8 + (10 - 1 - i) = 17 - i by omega]

/-- `block_operand[i]` is word bit `7 - i` (30_encoding.md rule R57). -/
theorem getElem?_blockOperand (w : CommandWord) {i : Nat} (h : i < 8) :
    (blockOperand w)[i]? = some (w.getLsbD (7 - i)) := by
  rw [blockOperand, getElem?_bits _ _ _ h, BitVec.testBit_toNat, dataField, BitVec.getLsbD_extractLsb',
    decide_eq_true (show 8 - 1 - i < 8 by omega), Bool.true_and, show 0 + (8 - 1 - i) = 7 - i by omega]

end Sys2Proof
end

section
/-! The statements of 30_encoding.md on command words. -/

namespace Sys2Proof

/-- Settles O1: the word carries the opcode, which selects the command, and each operand is read back from its field. -/
theorem decodeOfEncodeIsTheCommand : Obligations.DecodeOfEncodeIsTheCommand := by
  intro i hi
  cases i with
  | log => exact ⟨_, encode_log, decode_of_op_log (opField_packCommand 0 0 0)⟩
  | ksch k =>
    have hk := wf_ksch_iff.mp hi
    exact ⟨_, encode_ksch hk, by rw [decode_of_op_ksch (opField_packCommand ..), keyOperand_packCommand _ _ hk]⟩
  | enc b k =>
    obtain ⟨hb, hk⟩ := wf_enc_iff.mp hi
    exact ⟨_, encode_enc hb hk, by
      rw [decode_of_op_enc (opField_packCommand ..), blockOperand_packCommand _ _ hb, keyOperand_packCommand _ _ hk]⟩
  | dec b k =>
    obtain ⟨hb, hk⟩ := wf_dec_iff.mp hi
    exact ⟨_, encode_dec hb hk, by
      rw [decode_of_op_dec (opField_packCommand ..), blockOperand_packCommand _ _ hb, keyOperand_packCommand _ _ hk]⟩

/-- Settles O2, by the four opcodes: a field the command uses is the field it was decoded from. -/
theorem encodeOfDecodeClearsIgnoredFields : Obligations.EncodeOfDecodeClearsIgnoredFields := by
  intro w
  have hb := length_blockOperand w
  have hk := length_keyOperand w
  rcases opField_cases w with h | h | h | h
  · rw [decode_of_op_log h, encode_log, h]; rfl
  · rw [decode_of_op_ksch h, encode_ksch hk, ofNat_val_keyOperand, h]; rfl
  · rw [decode_of_op_enc h, encode_enc hb hk, ofNat_val_keyOperand, ofNat_val_blockOperand, h]; rfl
  · rw [decode_of_op_dec h, encode_dec hb hk, ofNat_val_keyOperand, ofNat_val_blockOperand, h]; rfl

/-- Settles O3: each match is the word of its opcode with empty operand fields. -/
theorem decodeFollowsTheOpcodeTable : Obligations.DecodeFollowsTheOpcodeTable := fun w =>
  ⟨fun h => decode_of_op_log (opField_of_masked h), fun h => decode_of_op_ksch (opField_of_masked h),
    fun h => decode_of_op_enc (opField_of_masked h), fun h => decode_of_op_dec (opField_of_masked h),
    fun _ => getElem?_keyOperand w, fun _ => getElem?_blockOperand w⟩

/-- Settles O4: equal commands have equal opcodes; under one opcode the commands are equal when their operands are. -/
theorem sameCommandIffUsedFieldsAgree : Obligations.SameCommandIffUsedFieldsAgree := by
  intro w w'
  by_cases hop : opField w = opField w'
  · rcases opField_cases w with h | h | h | h
    · simp [decode_of_op_log h, decode_of_op_log (hop ▸ h), hop, hop ▸ h]
    · simp [decode_of_op_ksch h, decode_of_op_ksch (hop ▸ h), keyOperand_inj, hop, hop ▸ h]
    · simp [decode_of_op_enc h, decode_of_op_enc (hop ▸ h), keyOperand_inj, blockOperand_inj, hop, hop ▸ h, and_comm]
    · simp [decode_of_op_dec h, decode_of_op_dec (hop ▸ h), keyOperand_inj, blockOperand_inj, hop, hop ▸ h, and_comm]
  · refine iff_of_false (fun h => hop ?_) fun h => hop h.1
    rw [← opcode_decode, h, opcode_decode]

/-- Settles O5. -/
theorem wordsAreTheWellFormedCommands : Obligations.WordsAreTheWellFormedCommands :=
  ⟨decode_wf, fun _ => encode_eq_none_iff⟩

/-- Settles O6, by running the decoder on the six words. -/
theorem workedWordsDecode : Obligations.WorkedWordsDecode := by
  unfold Obligations.WorkedWordsDecode
  decide

end Sys2Proof
end

section
/-! SUPPORT. What each command leaves and answers, from its operands alone: a block command runs or is rejected
(43_commands.md rules R141 to R150). -/

namespace Sys2Proof.Machine

theorem State.rejectBlock_of_keep {s : State} (e : ErrorKind) (h : s.config.traceOnReject = .keep) :
    s.rejectBlock e = { s with response := some (.err e) } :=
  State.eq_of_fields (s.rejectBlock_config e) (s.traceOnReject_trace_keep h) (s.rejectBlock_pending e) rfl

theorem State.rejectBlock_of_clear {s : State} (e : ErrorKind) (h : s.config.traceOnReject = .clear) :
    s.rejectBlock e = { s with trace := [], response := some (.err e) } :=
  State.eq_of_fields (s.rejectBlock_config e) (s.traceOnReject_trace_clear h) (s.rejectBlock_pending e) rfl

@[simp] theorem State.rejectBlock_rejectBlock (s : State) (e : ErrorKind) :
    (s.rejectBlock e).rejectBlock e = s.rejectBlock e := by
  have hcfg := s.rejectBlock_config e
  cases h : s.config.traceOnReject with
  | keep =>
    rw [State.rejectBlock_of_keep (s := s.rejectBlock e) e (hcfg ▸ h), State.rejectBlock_of_keep e h]
  | clear =>
    rw [State.rejectBlock_of_clear (s := s.rejectBlock e) e (hcfg ▸ h), State.rejectBlock_of_clear e h]

/-- The block of a run is 8 bits long. -/
theorem blockOk_out {T : Tables} {order : KeyParts → Bitstring × Bitstring} {b k : Bitstring} {ks : KeyParts}
    {fe : FeistelParts} (ho : roundKeyOrder order) (hT : T.ok = true) (hb : blockOk b) (hk : keyOk k)
    (hp : blockParts T order b k = .ok (ks, fe)) : blockOk fe.out := by
  rcases ho with rfl | rfl
  · obtain ⟨c, hc, hlen⟩ := encryptBlock_succeeds hT hb hk
    obtain rfl : fe.out = c := by simpa [encryptBlock_of_parts hp] using hc
    exact hlen
  · obtain ⟨c, hc, hlen⟩ := decryptBlock_succeeds hT hb hk
    obtain rfl : fe.out = c := by simpa [decryptBlock_of_parts hp] using hc
    exact hlen

theorem exec_enc_of_parts {b k : Bitstring} {s : State} {ks : KeyParts} {fe : FeistelParts} (hb : blockOk b)
    (hk : keyOk k) (hp : blockParts s.config.tables encryptOrder b k = .ok (ks, fe)) :
    exec (.enc b k) s = .next ((s.setTrace (traceOf .finalCiphertext ks fe)).respond (.okBlock fe.out)) := by
  rw [exec_enc, blockCommand_of_parts hb hk hp]

theorem exec_dec_of_parts {b k : Bitstring} {s : State} {ks : KeyParts} {fe : FeistelParts} (hb : blockOk b)
    (hk : keyOk k) (hp : blockParts s.config.tables decryptOrder b k = .ok (ks, fe)) :
    exec (.dec b k) s = .next ((s.setTrace (traceOf .finalPlaintext ks fe)).respond (.okBlock fe.out)) := by
  rw [exec_dec, blockCommand_of_parts hb hk hp]

/-- The two outcomes of ENC and DEC, by the lengths of the operands: no unit fails after the check
(60_exceptions.md rule R192). -/
theorem blockCommand_outcome {order : KeyParts → Bitstring × Bitstring} (ho : roundKeyOrder order) (lab : Label)
    (b k : Bitstring) (s : State) :
    (¬ (blockOk b ∧ keyOk k) ∧ blockCommand lab order b k s = s.rejectBlock .lengthMismatch) ∨
    (blockOk b ∧ keyOk k ∧ ∃ fe, blockParts s.config.tables order b k = .ok (keyPartsOf s.config.tables k, fe) ∧
      blockCommand lab order b k s =
        (s.setTrace (traceOf lab (keyPartsOf s.config.tables k) fe)).respond (.okBlock fe.out)) := by
  by_cases hwf : blockOk b ∧ keyOk k
  · obtain ⟨hb, hk⟩ := hwf
    obtain ⟨fe, hp, -⟩ := blockParts_succeeds ho s.config.tablesOk hb hk
    exact .inr ⟨hb, hk, fe, hp, blockCommand_of_parts hb hk hp⟩
  · exact .inl ⟨hwf, blockCommand_rejects hwf⟩

/-- A block command reads nothing that it writes. -/
theorem blockCommand_idem {order : KeyParts → Bitstring × Bitstring} (ho : roundKeyOrder order) (lab : Label)
    (b k : Bitstring) (s : State) :
    blockCommand lab order b k (blockCommand lab order b k s) = blockCommand lab order b k s := by
  obtain ⟨hwf, h⟩ | ⟨hb, hk, fe, hp, h⟩ := blockCommand_outcome ho lab b k s
  · rw [h, blockCommand_rejects hwf, State.rejectBlock_rejectBlock]
  · rw [h]; exact blockCommand_of_parts hb hk hp

/-- The values of a run depend on the round keys of the two rounds only. -/
theorem blockParts_congr {T : Tables} {order order' : KeyParts → Bitstring × Bitstring} {k : Bitstring} {ks : KeyParts}
    (b : Bitstring) (hks : keyParts T k = .ok ks) (h : order ks = order' ks) :
    blockParts T order b k = blockParts T order' b k := by
  simp [blockParts, hks, h, bind, Except.bind]

/-- Two traces of the same values differ in the last label at most. -/
theorem traceOf_eq_append (lab lab' : Label) (ks : KeyParts) (fe : FeistelParts) :
    traceOf lab ks fe = (traceOf lab' ks fe).dropLast ++ [⟨lab, fe.out⟩] := rfl

@[simp] theorem length_traceOf (lab : Label) (ks : KeyParts) (fe : FeistelParts) : (traceOf lab ks fe).length = 20 := rfl

/-- `r` is a response that 60_exceptions.md rule R192 allows for `i`. -/
def AnswerFor (i : Instr) (r : Response) : Prop :=
  ((∃ e, r = .err e) ↔ i.wf = false) ∧ ∀ e, r = .err e → e = .lengthMismatch

theorem answerFor_error {i : Instr} (h : ¬ i.wf = true) : AnswerFor i (.err .lengthMismatch) :=
  ⟨by simpa using h, fun _ he => by injection he with he; exact he.symm⟩

theorem answerFor_ok {i : Instr} {r : Response} (h : i.wf = true) (hr : ∀ e, r ≠ .err e) : AnswerFor i r :=
  ⟨by simp [hr, h], fun e he => absurd he (hr e)⟩

theorem blockCommand_answerFor {i : Instr} {order : KeyParts → Bitstring × Bitstring} {b k : Bitstring}
    (hi : i.wf = true ↔ blockOk b ∧ keyOk k) (ho : roundKeyOrder order) (lab : Label) (s : State) :
    ∃ r, (blockCommand lab order b k s).response = some r ∧ AnswerFor i r := by
  obtain ⟨hwf, h⟩ | ⟨hb, hk, fe, -, h⟩ := blockCommand_outcome ho lab b k s
  · exact ⟨_, by rw [h, State.rejectBlock_response], answerFor_error (hi.not.mpr hwf)⟩
  · exact ⟨_, by rw [h, State.respond_response], answerFor_ok (hi.mpr ⟨hb, hk⟩) (by simp)⟩

/-- Every command completes with a response (43_commands.md rules R140, R141). -/
theorem exec_answers (i : Instr) (s : State) : ∃ t r, exec i s = .next t ∧ t.response = some r ∧ AnswerFor i r := by
  cases i with
  | log => exact ⟨_, _, exec_log s, s.respond_response _, answerFor_ok rfl (by simp)⟩
  | ksch k =>
    by_cases hk : keyOk k
    · exact ⟨_, _, exec_ksch_of_wf hk, s.respond_response _, answerFor_ok (wf_ksch_iff.mpr hk) (by simp)⟩
    · exact ⟨_, _, exec_ksch_rejects hk, s.fail_response _, answerFor_error (wf_ksch_iff.not.mpr hk)⟩
  | enc b k =>
    obtain ⟨r, hr, ha⟩ := blockCommand_answerFor wf_enc_iff (.inl rfl) .finalCiphertext s
    exact ⟨_, r, exec_enc b k s, hr, ha⟩
  | dec b k =>
    obtain ⟨r, hr, ha⟩ := blockCommand_answerFor wf_dec_iff (.inr rfl) .finalPlaintext s
    exact ⟨_, r, exec_dec b k s, hr, ha⟩

/-- The frame of every command (10_state.md rules R23, R31). -/
theorem exec_frame {i : Instr} {s t : State} (h : exec i s = .next t) :
    t.config = s.config ∧ t.pending = s.pending ∧ ((i = .log ∨ ∃ k, i = .ksch k) → t.trace = s.trace) := by
  cases i with
  | log => rw [exec_log] at h; cases h; simp
  | ksch k =>
    obtain ⟨r, hr⟩ := execKsch_cases k s
    rw [exec, hr] at h; cases h; simp
  | enc b k => rw [exec_enc] at h; cases h; simp
  | dec b k => rw [exec_dec] at h; cases h; simp

/-- Every command is idempotent (20_memory.md rule R45). -/
theorem exec_idem {i : Instr} {s t : State} (h : exec i s = .next t) : exec i t = .next t := by
  cases i with
  | log => rw [exec_log] at h; cases h; rfl
  | ksch k =>
    by_cases hk : keyOk k
    · rw [exec_ksch_of_wf hk] at h; cases h; rw [exec_ksch_of_wf hk]; rfl
    · rw [exec_ksch_rejects hk] at h; cases h; rw [exec_ksch_rejects hk]; rfl
  | enc b k => rw [exec_enc] at h; cases h; rw [exec_enc, blockCommand_idem (.inl rfl)]
  | dec b k => rw [exec_dec] at h; cases h; rw [exec_dec, blockCommand_idem (.inr rfl)]

end Sys2Proof.Machine
end

section
/-! SUPPORT. The invariant is kept by every command (10_state.md rule R20; 43_commands.md rules R141, R150). -/

namespace Sys2Proof.Machine

theorem traceOk_of_inv {s : State} (h : Inv s) : traceOk s.trace :=
  h.traceEmptyOrBlock.elim .inl (traceOk_of_traceOfBlock s.config.tablesOk)

theorem length_of_traceOk {t : List TraceEntry} (h : traceOk t) : t.length = 0 ∨ t.length = 20 := by
  have hshape : (shapeOf t).length = t.length := List.length_map _
  rcases h with rfl | h | h
  · exact .inl rfl
  · rw [← hshape, h]; exact .inr rfl
  · rw [← hshape, h]; exact .inr rfl

theorem inv_respond {s : State} {r : Response} (hs : Inv s) (hr : responseOk r) : Inv (s.respond r) :=
  ⟨hs.traceEmptyOrBlock, fun r' h => by
    rw [State.respond_response] at h; injection h with h; exact h ▸ hr⟩

theorem inv_setTrace {s : State} {t : List TraceEntry} (hs : Inv s) (ht : t = [] ∨ traceOfBlock s.config.tables t) :
    Inv (s.setTrace t) := ⟨ht, hs.responseFormed⟩

theorem inv_rejectBlock {s : State} (hs : Inv s) : Inv (s.rejectBlock .lengthMismatch) := by
  refine inv_respond ?_ rfl
  cases h : s.config.traceOnReject with
  | keep => rw [State.traceOnReject, h]; exact hs
  | clear => rw [State.traceOnReject, h]; exact inv_setTrace hs (.inl rfl)

/-- A run writes the trace of a well-formed block command, and answers a block. -/
theorem inv_ofRun {s : State} {lab : Label} {order : KeyParts → Bitstring × Bitstring} {b k : Bitstring} {ks : KeyParts}
    {fe : FeistelParts} (hs : Inv s)
    (hlab : (order = encryptOrder ∧ lab = .finalCiphertext) ∨ (order = decryptOrder ∧ lab = .finalPlaintext))
    (hb : blockOk b) (hk : keyOk k) (hp : blockParts s.config.tables order b k = .ok (ks, fe)) :
    Inv ((s.setTrace (traceOf lab ks fe)).respond (.okBlock fe.out)) := by
  have ho : roundKeyOrder order := hlab.imp And.left And.left
  refine inv_respond (inv_setTrace hs (.inr ⟨b, k, ks, fe, hb, hk, ?_⟩)) (blockOk_out ho s.config.tablesOk hb hk hp)
  rcases hlab with ⟨rfl, rfl⟩ | ⟨rfl, rfl⟩
  · exact .inl ⟨hp, rfl⟩
  · exact .inr ⟨hp, rfl⟩

theorem inv_blockCommand {s : State} {lab : Label} {order : KeyParts → Bitstring × Bitstring} (b k : Bitstring)
    (hs : Inv s)
    (hlab : (order = encryptOrder ∧ lab = .finalCiphertext) ∨ (order = decryptOrder ∧ lab = .finalPlaintext)) :
    Inv (blockCommand lab order b k s) := by
  obtain ⟨-, h⟩ | ⟨hb, hk, fe, hp, h⟩ := blockCommand_outcome (hlab.imp And.left And.left) lab b k s
  · rw [h]; exact inv_rejectBlock hs
  · rw [h]; exact inv_ofRun hs hlab hb hk hp

theorem exec_keeps_inv {i : Instr} {s t : State} (hs : Inv s) (h : exec i s = .next t) : Inv t := by
  cases i with
  | log => rw [exec_log] at h; cases h; exact inv_respond hs (traceOk_of_inv hs)
  | ksch k =>
    by_cases hk : keyOk k
    · obtain ⟨-, -, -, -, -, -, h1, -, -, -, h2⟩ := keyPartsOf_lengths s.config.tablesOk k
      rw [exec_ksch_of_wf hk] at h; cases h
      exact inv_respond hs ⟨h1, h2⟩
    · rw [exec_ksch_rejects hk] at h; cases h
      exact inv_respond hs rfl
  | enc b k => rw [exec_enc] at h; cases h; exact inv_blockCommand b k hs (.inl ⟨rfl, rfl⟩)
  | dec b k => rw [exec_dec] at h; cases h; exact inv_blockCommand b k hs (.inr ⟨rfl, rfl⟩)

end Sys2Proof.Machine
end

section
/-! The statements about the machine: 10_state.md, 40_bitvector_primitives.md rule R81, 70_reset_and_hazards.md. -/

namespace Sys2Proof.Machine

/-- Settles O44: a step does nothing, resets, or executes one command, and each of the three keeps the invariant. -/
theorem stepKeepsTheInvariant : Obligations.StepKeepsTheInvariant := by
  intro s t hs h
  obtain ⟨-, rfl⟩ | ⟨rest, -, rfl⟩ | ⟨i, rest, -, hi⟩ := step_cases h
  · exact hs
  · exact ⟨.inl rfl, fun _ hr => by cases hr⟩
  · exact exec_keeps_inv (s := { s with pending := rest }) ⟨hs.traceEmptyOrBlock, hs.responseFormed⟩ hi

/-- Settles O46. -/
theorem traceIsEmptyOrHasTwentyEntries : Obligations.TraceIsEmptyOrHasTwentyEntries := fun _ hs =>
  ⟨traceOk_of_inv hs, length_of_traceOk (traceOk_of_inv hs)⟩

/-- Settles O43: every command completes and leaves the configuration, and so do the reset event and the idle step. -/
theorem stepCompletesAndKeepsTheTables : Obligations.StepCompletesAndKeepsTheTables := by
  intro s
  cases hp : s.pending with
  | nil => exact ⟨s, step_quiescent hp, rfl⟩
  | cons e rest =>
    cases e with
    | word w =>
      obtain ⟨t, -, ht, -⟩ := exec_answers (decode w) { s with pending := rest }
      exact ⟨t, (step_word hp).trans ht, (exec_frame ht).1⟩
    | command i =>
      obtain ⟨t, -, ht, -⟩ := exec_answers i { s with pending := rest }
      exact ⟨t, (step_command hp).trans ht, (exec_frame ht).1⟩
    | reset => exact ⟨_, step_reset hp, rfl⟩

/-- Settles O40. -/
theorem stepRunsTheNextCommand : Obligations.StepRunsTheNextCommand := fun _ _ =>
  ⟨fun _ => step_word, fun _ => step_command⟩

/-- Settles O41. -/
theorem resetEventEmptiesTheTrace : Obligations.ResetEventEmptiesTheTrace := fun _ =>
  ⟨fun _ => step_reset, step_quiescent⟩

/-- Settles O42: `Config.build` makes the check, and every configuration carries it. -/
theorem badTablesAreRefused : Obligations.BadTablesAreRefused := by
  refine ⟨fun T onReject => ⟨fun h => ?_, fun h => ?_⟩, fun s => s.config.tablesOk⟩
  · rw [State.build, Config.build_of_not_ok h]
  · rw [State.build, Config.build_of_ok h]
    exact ⟨_, rfl, rfl, rfl, rfl, rfl, rfl⟩

/-- Settles O45: the empty trace is one of the two forms, and there is no response to check. -/
theorem resetMeetsTheInvariant : Obligations.ResetMeetsTheInvariant :=
  ⟨rfl, .inl rfl, fun _ hr => by cases hr⟩

end Sys2Proof.Machine
end

section
/-! The statements of 43_commands.md, 60_exceptions.md and 20_memory.md on the four commands. -/

namespace Sys2Proof.Machine

/-- Settles O25: a well-formed ENC runs under K1 then K2. -/
theorem encRunsAndAnswersTheBlock : Obligations.EncRunsAndAnswersTheBlock := by
  intro b k s hb hk
  have hT := s.config.tablesOk
  obtain ⟨fe, hp, hfe⟩ := blockParts_succeeds (.inl rfl) hT hb hk
  exact ⟨_, fe, keyParts_eq hT hk, hfe, encryptBlock_of_parts hp, blockOk_out (.inl rfl) hT hb hk hp,
    exec_enc_of_parts hb hk hp⟩

/-- Settles O26: a well-formed DEC runs under K2 then K1. -/
theorem decRunsAndAnswersTheBlock : Obligations.DecRunsAndAnswersTheBlock := by
  intro b k s hb hk
  have hT := s.config.tablesOk
  obtain ⟨fe, hp, hfe⟩ := blockParts_succeeds (.inr rfl) hT hb hk
  exact ⟨_, fe, keyParts_eq hT hk, hfe, decryptBlock_of_parts hp, blockOk_out (.inr rfl) hT hb hk hp,
    exec_dec_of_parts hb hk hp⟩

/-- Settles O27. -/
theorem kschRunsAndAnswersTheRoundKeys : Obligations.KschRunsAndAnswersTheRoundKeys := by
  intro k s hk
  obtain ⟨-, -, -, -, -, -, h1, -, -, -, h2⟩ := keyPartsOf_lengths s.config.tablesOk k
  exact ⟨_, _, keySchedule_eq s.config.tablesOk hk, h1, h2, exec_ksch_of_wf hk⟩

/-- Settles O28: LOG writes the response only, and it is idempotent as every command is. -/
theorem logRunsAndAnswersTheTrace : Obligations.LogRunsAndAnswersTheTrace :=
  ⟨fun s => ⟨exec_log s, fun _ => exec_idem⟩, exec_log State.reset⟩

/-- Settles O29, by the parameter for a rejected ENC or DEC. -/
theorem malformedOperandsAreRejected : Obligations.MalformedOperandsAreRejected := fun s =>
  ⟨fun _ hk => exec_ksch_rejects hk,
    fun b k hwf h => ⟨by rw [exec_enc, blockCommand_rejects hwf, State.rejectBlock_of_keep _ h],
      by rw [exec_dec, blockCommand_rejects hwf, State.rejectBlock_of_keep _ h]⟩,
    fun b k hwf h => ⟨by rw [exec_enc, blockCommand_rejects hwf, State.rejectBlock_of_clear _ h],
      by rw [exec_dec, blockCommand_rejects hwf, State.rejectBlock_of_clear _ h]⟩⟩

/-- Settles O30: a word decodes to a well-formed command, whose answer is no error. -/
theorem onlyLengthMismatchIsReachable : Obligations.OnlyLengthMismatchIsReachable := by
  refine ⟨exec_answers, fun w s => ?_⟩
  obtain ⟨t, r, ht, hr, hiff, -⟩ := exec_answers (decode w) s
  refine ⟨t, r, (step_word (State.send_pending s _)).trans ht, hr, fun e he => ?_⟩
  have := hiff.mp ⟨e, he⟩
  rw [decode_wf] at this
  cases this

/-- Settles O31. -/
theorem commandsLeaveTheRestAlone : Obligations.CommandsLeaveTheRestAlone := fun _ _ _ => exec_frame

/-- Settles O37. -/
theorem repeatedCommandChangesNothing : Obligations.RepeatedCommandChangesNothing := fun _ _ _ => exec_idem

/-- Settles O33: the values of the trace come from the tables and the operands. -/
theorem nextBlockCommandDestroysTheTrace : Obligations.NextBlockCommandDestroysTheTrace := by
  intro b k s s' hs hb hk
  constructor
  · obtain ⟨fe, hp, -⟩ := blockParts_succeeds (.inl rfl) s.config.tablesOk hb hk
    exact ⟨_, _, exec_enc_of_parts hb hk hp, exec_enc_of_parts hb hk (hs ▸ hp), rfl, length_traceOf ..⟩
  · obtain ⟨fe, hp, -⟩ := blockParts_succeeds (.inr rfl) s.config.tablesOk hb hk
    exact ⟨_, _, exec_dec_of_parts hb hk hp, exec_dec_of_parts hb hk (hs ▸ hp), rfl, length_traceOf ..⟩

/-- Settles O36: with equal round keys the two orders are one, so both commands run on the same values. -/
theorem equalRoundKeysMakeEncAndDecAgree : Obligations.EqualRoundKeysMakeEncAndDecAgree := by
  intro b k r s hb hk hr
  have hT := s.config.tablesOk
  obtain ⟨h1, h2⟩ : (keyPartsOf s.config.tables k).k1 = r ∧ (keyPartsOf s.config.tables k).k2 = r := by
    simpa [keySchedule_eq hT hk] using hr
  obtain ⟨fe, hp, -⟩ := blockParts_succeeds (.inl rfl) hT hb hk
  have hp' : blockParts s.config.tables decryptOrder b k = .ok (keyPartsOf s.config.tables k, fe) := by
    rw [← hp]; exact blockParts_congr b (keyParts_eq hT hk) (by rw [decryptOrder, encryptOrder, h1, h2])
  exact ⟨_, _, _, fe.out, exec_enc_of_parts hb hk hp, exec_dec_of_parts hb hk hp', rfl, rfl,
    traceOf_eq_append .finalCiphertext .finalCiphertext _ fe, traceOf_eq_append .finalPlaintext .finalCiphertext _ fe⟩

/-- Settles O38: KSCH and the trace take the round keys from the same key schedule. -/
theorem kschAgreesWithTheTrace : Obligations.KschAgreesWithTheTrace := by
  intro b k s hb hk
  obtain ⟨fe, hp, -⟩ := blockParts_succeeds (.inl rfl) s.config.tablesOk hb hk
  obtain ⟨fd, hq, -⟩ := blockParts_succeeds (.inr rfl) s.config.tablesOk hb hk
  exact ⟨_, _, _, _, _, exec_ksch_of_wf hk, s.respond_response _, exec_enc_of_parts hb hk hp, rfl, rfl,
    exec_dec_of_parts hb hk hq, rfl, rfl⟩

end Sys2Proof.Machine
end

section
/-! SUPPORT. The units and the parts of the Feistel processor, outside the operands CORE gives them and bit by bit
(40_bitvector_primitives.md rules R78, R79, R84; 42_feistel_datapath.md rule R117). -/

namespace Sys2Proof

theorem permute_of_out_of_range {b : Bitstring} {table : PermTable} (h : ∃ p ∈ table, p < 1 ∨ b.length < p) :
    permute b table = .error .lengthMismatch := by
  obtain ⟨p, hp, hout⟩ := h
  refine if_neg fun hall => ?_
  have := List.all_eq_true.mp hall p hp
  simp only [Bool.and_eq_true, decide_eq_true_eq] at this
  omega

/-- An entry out of range is the one error of `permute` (40_bitvector_primitives.md rule R78). -/
theorem permute_cases (b : Bitstring) (table : PermTable) :
    permute b table = .ok (selectBits b table) ∨ permute b table = .error .lengthMismatch := by
  unfold permute
  split
  · exact .inl rfl
  · exact .inr rfl

theorem sbox_of_length_ne {box : SboxTable} {x : Bitstring} (h : x.length ≠ 4) : sbox box x = .error .lengthMismatch := by
  unfold sbox
  split
  · exact absurd rfl h
  · rfl

/-- `xor(xor(a, b), b) = a` (40_bitvector_primitives.md rule R86), on the bits. -/
theorem zipWith_xor_cancel_right {a b : Bitstring} (h : a.length = b.length) :
    List.zipWith Bool.xor (List.zipWith Bool.xor a b) b = a := by
  rw [zipWith_xor_assoc, zipWith_xor_self, ← h, zipWith_xor_zero]

/-- Two rotations in a row are one (40_bitvector_primitives.md rule R87). -/
theorem rotated_rotated {b : Bitstring} {m n : Nat} (hm : m < b.length) (hn : n < b.length) :
    (b.drop m ++ b.take m).drop n ++ (b.drop m ++ b.take m).take n =
      b.drop ((m + n) % b.length) ++ b.take ((m + n) % b.length) := by
  have hlen : (b.drop m ++ b.take m).length = b.length := length_rotated hm.le
  have hmod : (m + n) % b.length < b.length := Nat.mod_lt _ (by omega)
  refine List.ext_getElem? fun i => ?_
  by_cases hi : i < b.length
  · rw [getElem?_rotated (hlen ▸ hn) (hlen ▸ hi), hlen, getElem?_rotated hm (Nat.mod_lt _ (by omega)),
      getElem?_rotated hmod hi, Nat.mod_add_mod, Nat.add_mod_mod, Nat.add_assoc, Nat.add_comm n m]
  · rw [List.getElem?_eq_none, List.getElem?_eq_none]
    · rw [length_rotated hmod.le]; omega
    · rw [length_rotated (hlen ▸ hn.le), hlen]; omega

/-- Every entry of a 4 by 4 box is in its range (40_bitvector_primitives.md rule R81). -/
theorem boxEntry_of_sboxOk {box : SboxTable} (h : sboxOk box = true) {i j : Nat} (hi : i < 4) (hj : j < 4) :
    ∃ row, box[i]? = some row ∧ row[j]? = some (boxEntry box i j) ∧ boxEntry box i j < 4 := by
  simp only [sboxOk, Bool.and_eq_true, beq_iff_eq, List.all_eq_true, decide_eq_true_eq] at h
  obtain ⟨hlen, hrows⟩ := h
  have hbox : box[i]? = some box[i] := List.getElem?_eq_getElem (by omega)
  obtain ⟨hrow, hval⟩ := hrows box[i] (List.getElem_mem _)
  have hcol : box[i][j]? = some box[i][j] := List.getElem?_eq_getElem (by omega)
  have hentry : boxEntry box i j = box[i][j] := by simp [boxEntry, List.getD_eq_getElem?_getD, hbox, hcol]
  rw [hentry]
  exact ⟨box[i], hbox, hcol, Nat.lt_succ_of_le (hval _ (List.getElem_mem _))⟩

theorem selectBits_replicate {table : PermTable} {m n : Nat} (ht : tableOk table m n = true) (x : Bool) :
    selectBits (List.replicate n x) table = List.replicate m x := by
  obtain ⟨rfl, hin⟩ := tableOk_iff.mp ht
  refine List.eq_replicate_iff.mpr ⟨length_selectBits .., fun y hy => ?_⟩
  obtain ⟨p, hp, rfl⟩ := List.mem_map.mp hy
  have := hin p hp
  rw [List.getD_eq_getElem?_getD, List.getElem?_replicate, if_pos (by omega), Option.getD_some]

/-- A computation in two parts answers when both do. -/
theorem bind_ok_iff {α β : Type} {x : Except ErrorKind α} {f : α → Except ErrorKind β} {b : β} :
    (x >>= f) = .ok b ↔ ∃ a, x = .ok a ∧ f a = .ok b := by
  cases x with
  | ok a => simp [bind, Except.bind]
  | error e => simp [bind, Except.bind]

theorem splitBits_eq_ok {b l r : Bitstring} {n : Nat} (h : splitBits b n = .ok (l, r)) : l = b.take n ∧ r = b.drop n := by
  by_cases hn : n ≤ b.length
  · simpa [splitBits_of_le hn, eq_comm] using h
  · rw [splitBits_of_gt (by omega)] at h; cases h

/-- What is behind the values of the keyed function (42_feistel_datapath.md rule R117). -/
theorem fParts_parts {T : Tables} {r k : Bitstring} {f : FParts} (h : fParts T r k = .ok f) :
    permute r T.ep = .ok f.e ∧ xorBits f.e k = .ok f.x ∧
      ∃ sa sb, sbox T.s0 (f.x.take 4) = .ok sa ∧ sbox T.s1 (f.x.drop 4) = .ok sb ∧ f.s = sa ++ sb ∧
        permute f.s T.p4 = .ok f.q := by
  simp only [fParts, bind_ok_iff, pure, Except.pure, Except.ok.injEq] at h
  obtain ⟨e, he, x, hx, ⟨xa, xb⟩, hsplit, sa, ha, sb, hb, q, hq, rfl⟩ := h
  obtain ⟨rfl, rfl⟩ := splitBits_eq_ok hsplit
  exact ⟨he, hx, sa, sb, ha, hb, rfl, hq⟩

end Sys2Proof
end

section
/-! The statements of 40_bitvector_primitives.md on the permutation, the laws and the S-box. -/

namespace Sys2Proof

/-- Settles O8. -/
theorem permuteSelectsTheNamedPositions : Obligations.PermuteSelectsTheNamedPositions := fun b table =>
  ⟨permute_of_out_of_range, fun h => ⟨selectBits b table, permute_of_bounds h, length_selectBits b table,
    fun _ _ => getElem?_selectBits h⟩⟩

/-- Settles O11: on equal lengths `xor` is `Bool.xor` bit by bit, and obeys its laws. -/
theorem xorLaws : Obligations.XorLaws := by
  intro a b c hab hbc
  have hlen : (List.zipWith Bool.xor a b).length = b.length := by simp [hab]
  have hlen' : a.length = (List.zipWith Bool.xor b c).length := by simp [hab, hbc]
  refine ⟨?_, ?_, xorBits_self a, ?_⟩
  · rw [xorBits_of_length hab, xorBits_of_length hab.symm, List.zipWith_comm_of_comm Bool.xor_comm]
  · rw [xorBits_of_length hab, xorBits_of_length hbc]
    show xorBits _ c = xorBits a _
    rw [xorBits_of_length (hlen.trans hbc), xorBits_of_length hlen', zipWith_xor_assoc]
  · rw [xorBits_of_length hab]
    show xorBits _ b = _
    rw [xorBits_of_length hlen, zipWith_xor_cancel_right hab]

/-- Settles O12: the shift of a rotation is the rotation by the sum. -/
theorem circularShiftsCompose : Obligations.CircularShiftsCompose := by
  intro b m n hm hn
  have hmod : (m + n) % b.length < b.length := Nat.mod_lt _ (by omega)
  rw [lcs_of_lt hm, lcs_of_lt hmod, ← rotated_rotated hm hn]
  exact lcs_of_lt (by rw [length_rotated hm.le]; exact hn)

/-- Settles O13: two bits of row and two of column are in range, and an entry below 4 is read back from its two bits. -/
theorem sboxReadsRowAndColumn : Obligations.SboxReadsRowAndColumn := by
  refine fun box => ⟨fun h x0 x1 x2 x3 => ?_, fun x => sbox_of_length_ne⟩
  have hrow : 2 * x0.toNat + x3.toNat < 4 := by cases x0 <;> cases x3 <;> decide
  have hcol : 2 * x1.toNat + x2.toNat < 4 := by cases x1 <;> cases x2 <;> decide
  obtain ⟨row, hr, hc, hlt⟩ := boxEntry_of_sboxOk h hrow hcol
  refine ⟨row, _, _, _, hr, hc, rfl, ?_⟩
  generalize boxEntry box _ _ = v at hlt
  interval_cases v <;> rfl

/-- Settles O14: entry by entry the inverse holds the index of the first, and so the only, naming of a position. -/
theorem inverseTableUndoesPermute : Obligations.InverseTableUndoesPermute := by
  refine ⟨fun table m hl h => ⟨fun i p hp => ?_, fun b hb => ?_⟩, by decide⟩
  · have hbound := (tableOk_iff.mp (tableOk_of_eachOnce hl h)).2 p (List.mem_of_getElem? hp)
    obtain ⟨hi, rfl⟩ := List.getElem?_eq_some_iff.mp hp
    rw [getElem?_inverse (by omega), Nat.sub_add_cancel hbound.1, (nodup_of_eachOnce hl h).idxOf_getElem i hi]
  · subst hb
    have ht := tableOk_of_eachOnce hl h
    have hu := tableOk_inverse hl h
    rw [permute_of_tableOk ht rfl, permute_of_tableOk hu rfl]
    constructor
    · show permute _ _ = _
      rw [permute_of_tableOk hu (by simp [hl]), selectBits_inverse_of_selectBits hl h]
    · show permute _ _ = _
      rw [permute_of_tableOk ht (by simp [hl]), selectBits_of_selectBits_inverse hl h]

end Sys2Proof
end

section
/-! SUPPORT. The key schedule bit by bit: both shifts of a half are rotations of that half (41_key_schedule.md rules R100
to R103). -/

namespace Sys2Proof

/-- Bit `i` of each half of a 10-bit value whose halves are rotated by `n`, each on its own. -/
theorem getElem?_rotated_halves {l r : Bitstring} (hl : l.length = 5) (hr : r.length = 5) {n i : Nat} (hn : n < 5)
    (hi : i < 5) :
    ((l.drop n ++ l.take n) ++ (r.drop n ++ r.take n))[i]? = (l ++ r)[(i + n) % 5]? ∧
    ((l.drop n ++ l.take n) ++ (r.drop n ++ r.take n))[5 + i]? = (l ++ r)[5 + (i + n) % 5]? := by
  have hlen : (l.drop n ++ l.take n).length = 5 := by rw [length_rotated (by omega), hl]
  have hmod : (i + n) % 5 < 5 := Nat.mod_lt _ (by omega)
  constructor
  · rw [List.getElem?_append_left (by omega), getElem?_rotated (by omega) (by omega), hl,
      List.getElem?_append_left (by omega)]
  · rw [List.getElem?_append_right (by omega), hlen, Nat.add_sub_cancel_left, getElem?_rotated (by omega) (by omega), hr,
      List.getElem?_append_right (by omega), hl, Nat.add_sub_cancel_left]

theorem keyPartsOf_i1 (T : Tables) (k : Bitstring) :
    (keyPartsOf T k).i1 =
      (((keyPartsOf T k).p.take 5).drop 1 ++ ((keyPartsOf T k).p.take 5).take 1) ++
        (((keyPartsOf T k).p.drop 5).drop 1 ++ ((keyPartsOf T k).p.drop 5).take 1) := rfl

/-- The second shift, by 2, starts from the halves shifted by 1, so the halves are rotated by 3 in all
(41_key_schedule.md rule R102). -/
theorem keyPartsOf_i2 {T : Tables} (hT : T.ok = true) (k : Bitstring) :
    (keyPartsOf T k).i2 =
      (((keyPartsOf T k).p.take 5).drop 3 ++ ((keyPartsOf T k).p.take 5).take 3) ++
        (((keyPartsOf T k).p.drop 5).drop 3 ++ ((keyPartsOf T k).p.drop 5).take 3) := by
  have hp := (keyPartsOf_lengths hT k).1
  have hl : ((keyPartsOf T k).p.take 5).length = 5 := by simp [hp]
  have hr : ((keyPartsOf T k).p.drop 5).length = 5 := by simp [hp]
  have h3l := rotated_rotated (b := (keyPartsOf T k).p.take 5) (m := 1) (n := 2) (by omega) (by omega)
  have h3r := rotated_rotated (b := (keyPartsOf T k).p.drop 5) (m := 1) (n := 2) (by omega) (by omega)
  rw [hl] at h3l
  rw [hr] at h3r
  exact congrArg₂ (· ++ ·) h3l h3r

/-- A key of equal bits stays one through every operation of the schedule (41_key_schedule.md rule R103). -/
theorem keySchedule_replicate {T : Tables} (hT : T.ok = true) (x : Bool) :
    keySchedule T (List.replicate 10 x) = .ok (List.replicate 8 x, List.replicate 8 x) := by
  obtain ⟨hp10, hp8, -⟩ := Tables.ok_parts hT
  have hp : selectBits (List.replicate 10 x) T.p10 = List.replicate 10 x := selectBits_replicate hp10 x
  have h8 : selectBits (List.replicate 10 x) T.p8 = List.replicate 8 x := selectBits_replicate hp8 x
  rw [keySchedule_eq hT List.length_replicate, ← h8, keyPartsOf, hp]
  rfl

end Sys2Proof
end

section
/-! The statements of 41_key_schedule.md for every table set. -/

namespace Sys2Proof

/-- Settles O15: P10 and P8 name the bits they take, and between them the halves are rotated by 1 and by 3. -/
theorem keyScheduleBitByBit : Obligations.KeyScheduleBitByBit := by
  refine fun T k => ⟨fun hk => ?_, fun hT hk => ?_, keySchedule_replicate⟩
  · have hks : keyParts T k = .error .lengthMismatch := keyParts_rejects hk
    exact ⟨hks, by rw [keySchedule, hks]; rfl⟩
  · obtain ⟨hp, -, -, -, -, hi1, hk1, -, -, hi2, hk2⟩ := keyPartsOf_lengths hT k
    obtain ⟨hp10, hp8, -⟩ := Tables.ok_parts hT
    have h10 := (tableOk_iff.mp hp10).2
    have h8 := (tableOk_iff.mp hp8).2
    refine ⟨keyPartsOf T k, keyParts_eq hT hk, keySchedule_eq hT hk, hp, hi1, hk1, hi2, hk2,
      fun i p h => getElem?_selectBits (hk ▸ h10) h, fun i hi => ?_,
      fun i p h => ⟨getElem?_selectBits (hi1 ▸ h8) h, getElem?_selectBits (hi2 ▸ h8) h⟩⟩
    have hl : ((keyPartsOf T k).p.take 5).length = 5 := by simp [hp]
    have hr : ((keyPartsOf T k).p.drop 5).length = 5 := by simp [hp]
    obtain ⟨h1, h1'⟩ := getElem?_rotated_halves hl hr (n := 1) (by omega) hi
    obtain ⟨h3, h3'⟩ := getElem?_rotated_halves hl hr (n := 3) (by omega) hi
    rw [List.take_append_drop] at h1 h1' h3 h3'
    rw [keyPartsOf_i1, keyPartsOf_i2 hT]
    exact ⟨h1, h1', h3, h3'⟩

end Sys2Proof
end

section
/-! The statements of 42_feistel_datapath.md on the keyed function, the inverses and the closed forms. -/

namespace Sys2Proof

/-- Without an 8-bit round key the addition fails, if the expansion did not fail by the same error before. -/
theorem fParts_rejects {T : Tables} {r k : Bitstring} (hT : T.ok = true) (hk : k.length ≠ 8) :
    fParts T r k = .error .lengthMismatch := by
  obtain ⟨-, -, -, -, hep, -⟩ := Tables.ok_parts hT
  have hx : xorBits (selectBits r T.ep) k = .error .lengthMismatch :=
    xorBits_of_length_ne (by rw [length_select_of_tableOk hep]; exact hk.symm)
  rcases permute_cases r T.ep with h | h
  · simp [fParts, h, hx, bind, Except.bind]
  · simp [fParts, h, bind, Except.bind]

/-- Settles O18: the values of a run that answers are those of its units. -/
theorem keyedFunctionBitByBit : Obligations.KeyedFunctionBitByBit := by
  refine fun T r k hT => ⟨fParts_rejects hT, fun hr hk => ?_⟩
  obtain ⟨-, -, -, -, hep, hp4, -, -⟩ := Tables.ok_parts hT
  obtain ⟨f, hf, he, hx, hs, hq⟩ := fParts_succeeds hT hr hk
  obtain ⟨hfe, hfx, sa, sb, hsa, hsb, hfs, hfq⟩ := fParts_parts hf
  rw [permute_of_tableOk hep hr] at hfe
  rw [permute_of_tableOk hp4 hs] at hfq
  injection hfe with hfe
  injection hfq with hfq
  refine ⟨f, sa, sb, hf, keyedF_of_fParts hf, he, hx, hs, hq, fun i p h => ?_, hfx, hsa, hsb, hfs, fun i p h => ?_⟩
  · rw [← hfe]; exact getElem?_selectBits (hr ▸ (tableOk_iff.mp hep).2) h
  · rw [← hfq]; exact getElem?_selectBits (hs ▸ (tableOk_iff.mp hp4).2) h

theorem Undoes.bind_eq {f g : Bitstring → Except ErrorKind Bitstring} (h : Undoes g f) {t : Bitstring} (ht : t.length = 8) :
    (f t >>= g) = .ok t := by
  obtain ⟨u, hf, -, hg⟩ := h t ht
  exact bind_ok_iff.mpr ⟨u, hf, hg⟩

/-- Settles O21. -/
theorem roundIsItsOwnInverse : Obligations.RoundIsItsOwnInverse := fun _ _ _ hT ht hk =>
  (feistelRound_undoes_itself hT hk).bind_eq ht

/-- Settles O22. -/
theorem feistelInvertedByReversedKeys : Obligations.FeistelInvertedByReversedKeys := fun _ _ _ _ hT hb ha hkb =>
  (feistel_undoes_reversed hT ha hkb).bind_eq hb

/-- Settles O23: the transform under reversed keys gives the block that has a given image, and gives it from any block
that has that image. -/
theorem feistelIsBijective : Obligations.FeistelIsBijective := by
  refine fun T ka kb hT ha hkb => ⟨fun b hb => ?_, fun c hc => ?_⟩
  · obtain ⟨c, h, hc⟩ := feistel_succeeds hT hb ha hkb
    exact ⟨c, hc, h⟩
  · obtain ⟨b, hback, hb, hforth⟩ := feistel_undoes_reversed hT hkb ha c hc
    refine ⟨b, hb, hforth, fun b' hb' h => ?_⟩
    obtain ⟨c', hc', -, hback'⟩ := feistel_undoes_reversed hT ha hkb b' hb'
    obtain rfl : c' = c := Except.ok.inj (hc'.symm.trans h)
    exact Except.ok.inj (hback'.symm.trans hback)

/-- Settles O24, by running the four tables on named bits. -/
theorem standardPermutationsClosedForm : Obligations.StandardPermutationsClosedForm :=
  ⟨fun _ _ _ _ _ _ _ _ => ⟨rfl, rfl⟩, fun _ _ _ _ => ⟨rfl, rfl⟩⟩

end Sys2Proof
end

section
/-! The statements of 42_feistel_datapath.md rule R131 and 43_commands.md rule R144 on the machine. -/

namespace Sys2Proof

/-- `encrypt` takes back `decrypt` under the same key (42_feistel_datapath.md rule R131). -/
theorem encryptBlock_undoes_decryptBlock {T : Tables} {k : Bitstring} (hT : T.ok = true) (hk : keyOk k) :
    Undoes (encryptBlock T · k) (decryptBlock T · k) := by
  obtain ⟨-, -, -, -, -, -, h1, -, -, -, h2⟩ := keyPartsOf_lengths hT k
  simpa only [encryptBlock_eq hT hk, decryptBlock_eq hT hk] using feistel_undoes_reversed hT h2 h1

/-- The values of the block transform as its units give them, under the names of 10_state.md rule R22. -/
theorem feistelParts_values {T : Tables} {b ka kb : Bitstring} {fe : FeistelParts} (hT : T.ok = true) (hb : blockOk b)
    (ha : ka.length = roundKeyW) (hkb : kb.length = roundKeyW) (h : feistelParts T b ka kb = .ok fe) :
    permute b T.ip = .ok fe.ip ∧ splitBits fe.ip 4 = .ok (fe.l1, fe.r1) ∧
      fParts T fe.r1 ka = .ok fe.f1Parts ∧ fk T fe.l1 fe.r1 ka = .ok fe.f1 ∧
      fParts T fe.f1 kb = .ok fe.f2Parts ∧ fk T fe.r1 fe.f1 kb = .ok fe.f2 ∧
      permute (fe.f2 ++ fe.f1) T.fp = .ok fe.out ∧
      fe.st1 = fe.f1 ++ fe.r1 ∧ fe.sw = fe.r1 ++ fe.f1 ∧ fe.st2 = fe.f2 ++ fe.f1 := by
  obtain ⟨fe', hfe', hip, hlr, hF1, hf1, hst1, hsw, hl2, hr2, hF2, hf2, hst2, hout, hl1l, hr1l, hf1l, hf2l⟩ :=
    feistelParts_succeeds hT hb ha hkb
  obtain rfl : fe' = fe := by simpa [hfe'] using h
  rw [hr2] at hF2 hst2
  rw [hl2] at hf2
  obtain ⟨-, -, htip, -⟩ := Tables.ok_parts hT
  obtain ⟨f, hf, -, -, -, hq1⟩ := fParts_succeeds hT hr1l ha
  obtain rfl : f = fe'.f1Parts := by simpa [hf] using hF1
  obtain ⟨g, hg, -, -, -, hq2⟩ := fParts_succeeds hT hf1l hkb
  obtain rfl : g = fe'.f2Parts := by simpa [hg] using hF2
  refine ⟨by rw [permute_of_tableOk htip hb, hip], by rw [hlr, splitBits_append hl1l], hF1, ?_, hF2, ?_, ?_, hst1, hsw, hst2⟩
  · rw [hf1, fk_of_keyedF (keyedF_of_fParts hF1) (hq1.trans hl1l.symm)]
  · rw [hf2, fk_of_keyedF (keyedF_of_fParts hF2) (hq2.trans hr1l.symm)]
  · rw [hout, hst2, permute_of_tableOk (tableOk_fp hT) (by simp [hf1l, hf2l])]

end Sys2Proof

namespace Sys2Proof.Machine

/-- Settles O35: as O34, with ENC taking back DEC. -/
theorem encOfDecIsTheCiphertext : Obligations.EncOfDecIsTheCiphertext := by
  intro b k s s' hs hb hk
  obtain ⟨c, hc, hcl, hd⟩ := encryptBlock_undoes_decryptBlock s.config.tablesOk hk b hb
  obtain ⟨t, ht, hr⟩ := exec_dec_answers hb hk hc
  obtain ⟨t', ht', hr'⟩ := exec_enc_answers (s := s') hcl hk (hs ▸ hd)
  exact ⟨c, t, t', ht, hr, ht', hr'⟩

/-- Settles O39: the trace holds the values of the key schedule and of the block transform, and these are the units' own. -/
theorem traceRecordsEveryStep : Obligations.TraceRecordsEveryStep := by
  intro b k s hb hk
  have hT := s.config.tablesOk
  obtain ⟨-, -, -, -, -, -, hk1, -, -, -, hk2⟩ := keyPartsOf_lengths hT k
  refine ⟨_, keyParts_eq hT hk, fun i lab ka kb h => ?_⟩
  obtain ⟨fe, hfe, hka, hkb, hexec⟩ : ∃ fe, feistelParts s.config.tables b ka kb = .ok fe ∧
      ka.length = 8 ∧ kb.length = 8 ∧ exec i s = .next ((s.setTrace (traceOf lab (keyPartsOf s.config.tables k) fe)).respond (.okBlock fe.out)) := by
    rcases h with h | h
    · obtain ⟨rfl, rfl, rfl, rfl⟩ := by simpa only [Prod.mk.injEq] using h
      obtain ⟨fe, hp, hfe⟩ := blockParts_succeeds (.inl rfl) hT hb hk
      exact ⟨fe, hfe, hk1, hk2, exec_enc_of_parts hb hk hp⟩
    · obtain ⟨rfl, rfl, rfl, rfl⟩ := by simpa only [Prod.mk.injEq] using h
      obtain ⟨fe, hp, hfe⟩ := blockParts_succeeds (.inr rfl) hT hb hk
      exact ⟨fe, hfe, hk2, hk1, exec_dec_of_parts hb hk hp⟩
  obtain ⟨hip, hsplit, hF1, hf1, hF2, hf2, hout, hst1, hsw, hst2⟩ := feistelParts_values hT hb hka hkb hfe
  obtain ⟨-, hx1, -⟩ := fParts_parts hF1
  obtain ⟨-, hx2, -⟩ := fParts_parts hF2
  refine ⟨_, fe.ip, fe.l1, fe.r1, fe.f1Parts, fe.f1, fe.f2Parts, fe.f2, fe.out, hexec, hip, hsplit, hF1, hf1, hF2, hf2,
    hout, hx1, hx2, ?_⟩
  rw [State.respond_trace, State.setTrace_trace, traceOf, hst1, hsw, hst2]

end Sys2Proof.Machine
end

section
/-! SUPPORT. Closed forms under TABLES_STD: the round keys, and the keyed function as its two S-boxes, which determine the
round key (41_key_schedule.md rules R105, R106). -/

namespace Sys2Proof

/-- A list of ten bits by its bits. -/
theorem exists_bits_of_keyOk {k : Bitstring} (hk : keyOk k) :
    ∃ k1 k2 k3 k4 k5 k6 k7 k8 k9 k10, k = [k1, k2, k3, k4, k5, k6, k7, k8, k9, k10] := by
  match k, hk with
  | [k1, k2, k3, k4, k5, k6, k7, k8, k9, k10], _ => exact ⟨k1, k2, k3, k4, k5, k6, k7, k8, k9, k10, rfl⟩

/-- A list of eight bits by its bits. -/
theorem exists_bits_of_length_eight {k : Bitstring} (hk : k.length = 8) :
    ∃ k1 k2 k3 k4 k5 k6 k7 k8, k = [k1, k2, k3, k4, k5, k6, k7, k8] := by
  match k, hk with
  | [k1, k2, k3, k4, k5, k6, k7, k8], _ => exact ⟨k1, k2, k3, k4, k5, k6, k7, k8, rfl⟩

/-- The round keys under TABLES_STD (41_key_schedule.md rule R105). -/
theorem keySchedule_std (k1 k2 k3 k4 k5 k6 k7 k8 k9 k10 : Bool) :
    keySchedule tablesStd [k1, k2, k3, k4, k5, k6, k7, k8, k9, k10] =
      .ok ([k1, k7, k9, k4, k8, k3, k10, k6], [k8, k3, k6, k5, k10, k2, k9, k1]) := rfl

/-- The keyed function under TABLES_STD: each half of the expanded right half plus the round key goes to one S-box, and P4
mixes the two 2-bit entries. -/
theorem keyedF_std (n1 n2 n3 n4 k1 k2 k3 k4 k5 k6 k7 k8 : Bool) :
    ∃ a1 a2 b1 b2, sbox tablesStd.s0 [n4 ^^ k1, n1 ^^ k2, n2 ^^ k3, n3 ^^ k4] = .ok [a1, a2] ∧
      sbox tablesStd.s1 [n2 ^^ k5, n3 ^^ k6, n4 ^^ k7, n1 ^^ k8] = .ok [b1, b2] ∧
      keyedF tablesStd [n1, n2, n3, n4] [k1, k2, k3, k4, k5, k6, k7, k8] = .ok [a2, b2, b1, a1] :=
  ⟨_, _, _, _, rfl, rfl, rfl⟩

/-- Adding different bits before an S-box of TABLES_STD gives a different function: neither box has a period. -/
theorem sbox_std_shift_inj : ∀ box ∈ [tablesStd.s0, tablesStd.s1], ∀ k1 k2 k3 k4 k1' k2' k3' k4' : Bool,
    (∀ x1 x2 x3 x4 : Bool,
      sbox box [x1 ^^ k1, x2 ^^ k2, x3 ^^ k3, x4 ^^ k4] = sbox box [x1 ^^ k1', x2 ^^ k2', x3 ^^ k3', x4 ^^ k4']) →
    k1 = k1' ∧ k2 = k2' ∧ k3 = k3' ∧ k4 = k4' := by
  decide

/-- Under TABLES_STD the round key is determined by its keyed function. -/
theorem roundKey_eq_of_keyedF_std {k k' : Bitstring} (hk : k.length = 8) (hk' : k'.length = 8)
    (h : ∀ r : Bitstring, r.length = 4 → keyedF tablesStd r k = keyedF tablesStd r k') : k = k' := by
  obtain ⟨k1, k2, k3, k4, k5, k6, k7, k8, rfl⟩ := exists_bits_of_length_eight hk
  obtain ⟨l1, l2, l3, l4, l5, l6, l7, l8, rfl⟩ := exists_bits_of_length_eight hk'
  have hboxes : ∀ n1 n2 n3 n4 : Bool,
      sbox tablesStd.s0 [n4 ^^ k1, n1 ^^ k2, n2 ^^ k3, n3 ^^ k4] =
        sbox tablesStd.s0 [n4 ^^ l1, n1 ^^ l2, n2 ^^ l3, n3 ^^ l4] ∧
      sbox tablesStd.s1 [n2 ^^ k5, n3 ^^ k6, n4 ^^ k7, n1 ^^ k8] =
        sbox tablesStd.s1 [n2 ^^ l5, n3 ^^ l6, n4 ^^ l7, n1 ^^ l8] := by
    intro n1 n2 n3 n4
    obtain ⟨a1, a2, b1, b2, ha, hb, hF⟩ := keyedF_std n1 n2 n3 n4 k1 k2 k3 k4 k5 k6 k7 k8
    obtain ⟨c1, c2, d1, d2, hc, hd, hF'⟩ := keyedF_std n1 n2 n3 n4 l1 l2 l3 l4 l5 l6 l7 l8
    have hout := h [n1, n2, n3, n4] rfl
    rw [hF, hF'] at hout
    obtain ⟨rfl, rfl, rfl, rfl⟩ : a2 = c2 ∧ b2 = d2 ∧ b1 = d1 ∧ a1 = c1 := by simpa using hout
    exact ⟨ha.trans hc.symm, hb.trans hd.symm⟩
  obtain ⟨rfl, rfl, rfl, rfl⟩ := sbox_std_shift_inj _ (by simp) k1 k2 k3 k4 l1 l2 l3 l4
    fun x1 x2 x3 x4 => (hboxes x2 x3 x4 x1).1
  obtain ⟨rfl, rfl, rfl, rfl⟩ := sbox_std_shift_inj _ (by simp) k5 k6 k7 k8 l5 l6 l7 l8
    fun x1 x2 x3 x4 => (hboxes x4 x1 x2 x3).2
  rfl

end Sys2Proof
end

section
/-! SUPPORT. What a block tells of the first round key: the right half before FP is the left half after IP plus the keyed
function of the right half (42_feistel_datapath.md rule R124). -/

namespace Sys2Proof

/-- The transform of the block whose halves after IP are `l` and `r`. -/
theorem feistel_of_halves {T : Tables} {l r q ka kb : Bitstring} (hT : T.ok = true) (hl : l.length = 4) (hr : r.length = 4)
    (ha : ka.length = roundKeyW) (hkb : kb.length = roundKeyW) (hq : keyedF T r ka = .ok q) :
    ∃ y : Bitstring, y.length = 4 ∧
      feistel T (selectBits (l ++ r) T.fp) ka kb = permute (y ++ List.zipWith Bool.xor q l) T.fp := by
  obtain ⟨-, -, hip, honce, -⟩ := Tables.ok_parts hT
  have hlen : (l ++ r).length = 8 := by simp [hl, hr]
  have hb : (selectBits (l ++ r) T.fp).length = 8 := length_select_of_tableOk (tableOk_fp hT)
  have hback : selectBits (selectBits (l ++ r) T.fp) T.ip = l ++ r :=
    selectBits_of_selectBits_inverse ((tableOk_iff.mp hip).1.trans hlen.symm) (hlen ▸ honce)
  obtain ⟨fe, hfe, hfip, hlr, hF1, hf1, -, -, -, -, -, -, -, -, hl1l, hr1l, -, hf2l⟩ := feistelParts_succeeds hT hb ha hkb
  obtain ⟨rfl, rfl⟩ : fe.l1 = l ∧ fe.r1 = r :=
    List.append_inj (hlr.symm.trans (hfip.trans hback)) (hl1l.trans hl.symm)
  obtain rfl : fe.f1Parts.q = q := Except.ok.inj ((keyedF_of_fParts hF1).symm.trans hq)
  obtain ⟨-, -, -, -, -, -, hout, -⟩ := feistelParts_values hT hb ha hkb hfe
  exact ⟨fe.f2, hf2l, by rw [feistel_of_feistelParts hfe, ← hout, hf1]⟩

/-- FP loses nothing. -/
theorem permute_fp_inj {T : Tables} (hT : T.ok = true) {t t' : Bitstring} (ht : t.length = 8) (ht' : t'.length = 8)
    (h : permute t T.fp = permute t' T.fp) : t = t' := by
  obtain ⟨u, hu, -, hback⟩ := ip_undoes_fp hT t ht
  obtain ⟨u', hu', -, hback'⟩ := ip_undoes_fp hT t' ht'
  obtain rfl : u = u' := Except.ok.inj (hu.symm.trans (h.trans hu'))
  exact Except.ok.inj (hback.symm.trans hback')

/-- When two orders of round keys give the same transform, their first round keys have the same keyed function. -/
theorem keyedF_eq_of_feistel_eq {T : Tables} {ka kb : Bitstring} (hT : T.ok = true) (ha : ka.length = roundKeyW)
    (hkb : kb.length = roundKeyW) (h : ∀ b : Bitstring, blockOk b → feistel T b ka kb = feistel T b kb ka) {r : Bitstring}
    (hr : r.length = 4) : keyedF T r ka = keyedF T r kb := by
  obtain ⟨q, hq, hql⟩ := keyedF_succeeds hT hr ha
  obtain ⟨q', hq', hql'⟩ := keyedF_succeeds hT hr hkb
  obtain ⟨y, hy, hf⟩ := feistel_of_halves hT hr hr ha hkb hq
  obtain ⟨y', hy', hf'⟩ := feistel_of_halves hT hr hr hkb ha hq'
  have hout := h (selectBits (r ++ r) T.fp) (length_select_of_tableOk (tableOk_fp hT))
  rw [hf, hf'] at hout
  have hst2 := permute_fp_inj hT (by simp [hy, hql, hr]) (by simp [hy', hql', hr]) hout
  have hright := (List.append_inj hst2 (hy.trans hy'.symm)).2
  rw [hq, hq', ← zipWith_xor_cancel_right (hql.trans hr.symm), hright, zipWith_xor_cancel_right (hql'.trans hr.symm)]

end Sys2Proof
end

section
/-! The statements of 41_key_schedule.md under TABLES_STD. -/

namespace Sys2Proof

/-- Settles O16: the closed form is a run on named bits, and the pair of round keys names every bit of the key. -/
theorem standardKeyScheduleClosedForm : Obligations.StandardKeyScheduleClosedForm := by
  refine ⟨fun k1 k2 k3 k4 k5 k6 k7 k8 k9 k10 => ⟨_, rfl, rfl, rfl, rfl, rfl, rfl⟩, fun k k' hk hk' h => ?_⟩
  obtain ⟨k1, k2, k3, k4, k5, k6, k7, k8, k9, k10, rfl⟩ := exists_bits_of_keyOk hk
  obtain ⟨l1, l2, l3, l4, l5, l6, l7, l8, l9, l10, rfl⟩ := exists_bits_of_keyOk hk'
  rw [keySchedule_std, keySchedule_std] at h
  simp only [Except.ok.injEq, Prod.mk.injEq, List.cons.injEq, and_true] at h
  obtain ⟨⟨rfl, rfl, rfl, rfl, rfl, rfl, rfl, rfl⟩, -, -, -, rfl, -, rfl, -, -⟩ := h
  rfl

/-- The condition `K1 = K2` leaves three bits of the key free. -/
theorem keySchedule_std_equal_iff {k : Bitstring} (hk : keyOk k) :
    (∃ r, keySchedule tablesStd k = .ok (r, r)) ↔ ∃ x y z : Bool, k = [x, y, y, z, z, x, y, x, x, x] := by
  constructor
  · rintro ⟨r, h⟩
    obtain ⟨k1, k2, k3, k4, k5, k6, k7, k8, k9, k10, rfl⟩ := exists_bits_of_keyOk hk
    rw [keySchedule_std] at h
    injection h with h
    injection h with h1 h2
    obtain ⟨rfl, rfl, rfl, rfl, rfl, rfl, rfl, -⟩ : k1 = k8 ∧ k7 = k3 ∧ k9 = k6 ∧ k4 = k5 ∧ k8 = k10 ∧ k3 = k2 ∧
        k10 = k9 ∧ k6 = k1 := by
      simpa only [List.cons.injEq, and_true] using h1.trans h2.symm
    exact ⟨_, _, _, rfl⟩
  · rintro ⟨x, y, z, rfl⟩
    exact ⟨_, rfl⟩

/-- The keys of 41_key_schedule.md rule R106, by their three free bits. -/
theorem mem_equalKeys_iff {k : Bitstring} :
    k ∈ [0b0000000000, 0b0001100000, 0b0110001000, 0b0111101000, 0b1000010111, 0b1001110111, 0b1110011111,
      0b1111111111].map (bits 10) ↔ ∃ x y z : Bool, k = [x, y, y, z, z, x, y, x, x, x] := by
  constructor
  · revert k
    decide
  · rintro ⟨x, y, z, rfl⟩
    revert x y z
    decide

/-- Settles O17: `K1 = K2` leaves three bits of the key free; and the transform shows the keyed function of the first
round key, which under TABLES_STD shows the round key. -/
theorem standardEqualRoundKeysAreEight : Obligations.StandardEqualRoundKeysAreEight := by
  refine fun k hk => ⟨(keySchedule_std_equal_iff hk).trans mem_equalKeys_iff.symm, ?_, fun h => ?_⟩
  · rintro ⟨r, h⟩ b -
    simp only [encryptBlock, decryptBlock, h, bind, Except.bind]
  · have hT : tablesStd.ok = true := by decide
    obtain ⟨-, -, -, -, -, -, h1, -, -, -, h2⟩ := keyPartsOf_lengths hT k
    simp only [encryptBlock_eq hT hk, decryptBlock_eq hT hk] at h
    have heq := roundKey_eq_of_keyedF_std h1 h2 fun r hr => keyedF_eq_of_feistel_eq hT h1 h2 h hr
    exact ⟨_, by rw [keySchedule_eq hT hk, heq]⟩

end Sys2Proof
end

section
/-! SUPPORT. The numbers of the labels (30_encoding.md rule R63). -/

namespace Sys2Proof.Machine

theorem labelId_le (l : Label) : labelId l ≤ 20 := by cases l <;> decide

/-- The labels in the order of their numbers. -/
def labelsInOrder : List Label :=
  [.afterP10, .afterLS1, .k1, .afterLS2, .k2, .afterIP, .round1EP, .round1XOR, .round1Sboxes, .round1P4, .round1Fk,
   .afterRound1, .afterSwap, .round2EP, .round2XOR, .round2Sboxes, .round2P4, .round2Fk, .afterRound2, .finalCiphertext,
   .finalPlaintext]

theorem getElem?_labelsInOrder (l : Label) : labelsInOrder[labelId l]? = some l := by cases l <;> rfl

theorem labelId_injective : Function.Injective labelId := fun l l' h =>
  Option.some.inj (by rw [← getElem?_labelsInOrder l, h, getElem?_labelsInOrder])

end Sys2Proof.Machine
end

section
/-! The statements of 30_encoding.md rules R62 and R63 on response words. -/

namespace Sys2Proof.Machine

theorem bits_ofNat_val {n : Nat} {b : Bitstring} (h : b.length = n) : bits n (BitVec.ofNat n (val b)).toNat = b := by
  rw [toNat_ofNat_val h.le, bits_val_of_length h]

/-- Settles O47, by the form of the response: its payload fits in the fields. -/
theorem statusWordCarriesTheResponse : Obligations.StatusWordCarriesTheResponse := by
  intro r hr
  cases r with
  | okBlock c =>
    obtain ⟨h1, h2, h3⟩ := packStatus_fields 0 0 (BitVec.ofNat 8 (val c))
    refine ⟨_, _, _, rfl, h1, h2, h3, ?_, by simp, by simp, by simp⟩
    rintro _ ⟨⟩
    exact ⟨rfl, rfl, bits_ofNat_val hr, rfl⟩
  | okKeys k1 k2 =>
    obtain ⟨h1, h2, h3⟩ := packStatus_fields 0 (BitVec.ofNat 8 (val k1)) (BitVec.ofNat 8 (val k2))
    refine ⟨_, _, _, rfl, h1, h2, h3, by simp, ?_, by simp, by simp⟩
    rintro _ _ ⟨⟩
    exact ⟨rfl, bits_ofNat_val hr.1, bits_ofNat_val hr.2, rfl⟩
  | okLog t =>
    obtain ⟨h1, h2, h3⟩ := packStatus_fields 0 0 (BitVec.ofNat 8 t.length)
    refine ⟨_, _, _, rfl, h1, h2, h3, by simp, by simp, ?_, by simp⟩
    rintro _ ⟨⟩
    have hlen : t.length < 2 ^ 8 := by rcases length_of_traceOk hr with h | h <;> omega
    exact ⟨rfl, rfl, by rw [BitVec.toNat_ofNat, Nat.mod_eq_of_lt hlen], rfl⟩
  | err e =>
    obtain rfl : e = .lengthMismatch := hr
    obtain ⟨h1, h2, h3⟩ := packStatus_fields 1 0 0
    refine ⟨_, _, _, rfl, h1, h2, h3, by simp, by simp, by simp, ?_⟩
    rintro _ ⟨⟩
    exact ⟨rfl, rfl, rfl, rfl⟩

/-- Settles O48: the three fields of the word, and a value below `2 ^ len` in the lowest. -/
theorem entryWordCarriesTheEntry : Obligations.EntryWordCarriesTheEntry := by
  refine ⟨fun e he => ?_, labelId_injective, labelId_le⟩
  have hlen : e.value.length ≤ 10 := by omega
  have hid := labelId_le e.label
  obtain ⟨hf1, hf2, hf3⟩ := packEntry_fields (BitVec.ofNat 5 (labelId e.label)) (BitVec.ofNat 4 e.value.length)
    (BitVec.ofNat 10 (val e.value))
  have hval : ((entryWord e).extractLsb' 0 10).toNat = val e.value := by rw [entryWord, hf3, toNat_ofNat_val hlen]
  refine ⟨?_, ?_, hval, by rw [hval, bits_val], fun i hi hi' => ?_⟩
  · rw [entryWord, hf1, BitVec.toNat_ofNat, Nat.mod_eq_of_lt (by omega)]
  · rw [entryWord, hf2, BitVec.toNat_ofNat, Nat.mod_eq_of_lt (by omega)]
  · have hbit : ((entryWord e).extractLsb' 0 10).getLsbD i = (entryWord e).getLsbD i := by
      simp [hi']
    rw [← hbit, ← BitVec.testBit_toNat, hval]
    exact Nat.testBit_lt_two_pow ((val_lt _).trans_le (Nat.pow_le_pow_right (by omega) hi))

end Sys2Proof.Machine
end

section
/-! The statements of 20_memory.md rule R50 and 60_exceptions.md rule R203 on platforms. -/

namespace Sys2Proof.Machine

/-- Two moves in either order end alike. -/
theorem Platform.advance_comm (p : Platform) (n m : Nat) : (p.advance n).advance m = (p.advance m).advance n := by
  refine Platform.eq_of_fields rfl (List.ext_getElem? fun i => ?_)
  simp only [Platform.advance_instances, Platform.advance_config, List.getElem?_modify]
  by_cases hn : n = i <;> by_cases hm : m = i <;> simp [hn, hm]

theorem Platform.run_cons (p : Platform) (n : Nat) (schedule : List Nat) :
    p.run (n :: schedule) = (p.advance n).run schedule := rfl

/-- A run moves instances only: it keeps the configuration and adds or removes no instance. -/
theorem Platform.run_keeps (p : Platform) (schedule : List Nat) :
    (p.run schedule).config = p.config ∧ (p.run schedule).instances.length = p.instances.length := by
  induction schedule generalizing p with
  | nil => exact ⟨rfl, rfl⟩
  | cons n schedule ih =>
    obtain ⟨hc, hl⟩ := ih (p.advance n)
    rw [Platform.run_cons, hc, hl]
    exact ⟨rfl, List.length_modify ..⟩

/-- Settles O49: a move writes one entry of the list from that entry alone, so moves commute. -/
theorem instancesDoNotInteract : Obligations.InstancesDoNotInteract := by
  refine ⟨fun p n m h => ?_, fun p n i t hi ht => ?_, fun p one other h => ?_⟩
  · rw [Platform.advance_instances, List.getElem?_modify_ne _ _ h.symm]
  · refine ⟨t.own, ?_, ?_⟩
    · rw [Platform.advance_instances, List.getElem?_modify_eq, hi, Option.map_eq_map, Option.map_some,
        InstanceState.move_of_next ht]
    · obtain ⟨u, hu, hcfg⟩ := stepCompletesAndKeepsTheTables (i.on p.config)
      obtain rfl : u = t := Host.Outcome.next.inj (hu.symm.trans ht)
      exact State.on_own _ hcfg
  · have : RightCommutative Platform.advance := ⟨Platform.advance_comm⟩
    exact h.foldl_eq p

/-- Settles O56. -/
theorem platformsAreIdenticalInstances : Obligations.PlatformsAreIdenticalInstances := by
  refine ⟨fun c => rfl, fun c n hn => ?_, fun p schedule => ?_⟩
  · refine ⟨_, dif_pos hn, rfl, List.length_replicate, fun i hi => ?_⟩
    rw [List.eq_of_mem_replicate hi]
    exact State.on_own c rfl
  · obtain ⟨hc, hl⟩ := p.run_keeps schedule
    exact ⟨hc, hl, (p.run schedule).atLeastOne⟩

end Sys2Proof.Machine
end

section
/-! SUPPORT. The tokens of a rendered command: an atom runs up to the next blank or comma (30_encoding.md rule R64). -/

namespace Sys2Proof

/-- A character that can stand inside an atom. -/
def isPlain (c : Char) : Bool := !(c == '#' || isBlank c || c == ',' || c == '(' || c == ')')

theorem tokens_plain_append {cs : List Char} (h : ∀ c ∈ cs, isPlain c = true) (acc rest : List Char) :
    tokens acc (cs ++ rest) = tokens (cs.reverse ++ acc) rest := by
  induction cs generalizing acc with
  | nil => rfl
  | cons c cs ih =>
    have hc : isPlain c = true := h c (by simp)
    simp only [isPlain, Bool.not_eq_true', Bool.or_eq_false_iff] at hc
    obtain ⟨⟨⟨⟨hhash, hblank⟩, hcomma⟩, hopen⟩, hclose⟩ := hc
    rw [List.cons_append, tokens]
    simp [hhash, hblank, hcomma, hopen, hclose, ih fun c' hc' => h c' (by simp [hc'])]

theorem flushAtom_reverse {cs : List Char} (h : cs ≠ []) : flushAtom cs.reverse = [.atom cs] := by
  simp [flushAtom, h]

section
variable {cs : List Char} (hne : cs ≠ []) (h : ∀ c ∈ cs, isPlain c = true)
include hne h

theorem tokens_atom : tokens [] cs = [.atom cs] := by
  have := tokens_plain_append h [] []
  rw [List.append_nil, List.append_nil] at this
  rw [this, tokens, flushAtom_reverse hne]

theorem tokens_atom_blank (rest : List Char) : tokens [] (cs ++ ' ' :: rest) = .atom cs :: tokens [] rest := by
  rw [tokens_plain_append h, List.append_nil]
  show flushAtom cs.reverse ++ tokens [] rest = _
  rw [flushAtom_reverse hne, List.singleton_append]

theorem tokens_atom_comma (rest : List Char) :
    tokens [] (cs ++ ',' :: rest) = .atom cs :: .comma :: tokens [] rest := by
  rw [tokens_plain_append h, List.append_nil]
  show flushAtom cs.reverse ++ .comma :: tokens [] rest = _
  rw [flushAtom_reverse hne, List.singleton_append]

end

theorem tokens_blank (rest : List Char) : tokens [] (' ' :: rest) = tokens [] rest := rfl

theorem isPlain_mnemonicKsch : ∀ c ∈ mnemonicKsch, isPlain c = true := List.all_eq_true.mp rfl
theorem isPlain_mnemonicEnc : ∀ c ∈ mnemonicEnc, isPlain c = true := List.all_eq_true.mp rfl
theorem isPlain_mnemonicDec : ∀ c ∈ mnemonicDec, isPlain c = true := List.all_eq_true.mp rfl

theorem renderOperand_ne_nil (b : Bitstring) : renderOperand b ≠ [] := List.cons_ne_nil _ _

theorem isPlain_renderOperand (b : Bitstring) : ∀ c ∈ renderOperand b, isPlain c = true := by
  have hquote : isPlain quoteChar = true := by decide
  have hdigit : ∀ x : Bool, isPlain (if x then '1' else '0') = true := by decide
  intro c hc
  simp only [renderOperand, renderBits, List.mem_cons, List.mem_append, List.mem_map, List.not_mem_nil, or_false] at hc
  obtain rfl | ⟨x, -, rfl⟩ | rfl := hc
  · exact hquote
  · exact hdigit x
  · exact hquote

theorem digits_renderBits (b : Bitstring) : digits (renderBits b) = some b := by
  induction b with
  | nil => rfl
  | cons x b ih =>
    show digits ((if x then '1' else '0') :: renderBits b) = _
    cases x <;> simp [digits, ih]

theorem unquote_renderOperand (b : Bitstring) : unquote (renderOperand b) = some (renderBits b) := by
  simp [unquote, renderOperand]

theorem operand_renderOperand (b : Bitstring) : operand (renderOperand b) = .ok b := by
  rw [operand, unquote_renderOperand, Option.getD_some, digits_renderBits]

/-- The tokens of a command with two operands. -/
theorem tokens_twoOperands {m : List Char} (hne : m ≠ []) (hm : ∀ c ∈ m, isPlain c = true) (b k : Bitstring) :
    tokens [] (m ++ ' ' :: (renderOperand b ++ ',' :: ' ' :: renderOperand k)) =
      [.atom m, .atom (renderOperand b), .comma, .atom (renderOperand k)] := by
  rw [tokens_atom_blank hne hm, tokens_atom_comma (renderOperand_ne_nil b) (isPlain_renderOperand b), tokens_blank,
    tokens_atom (renderOperand_ne_nil k) (isPlain_renderOperand k)]

theorem twoOperands_renderOperand (make : Bitstring → Bitstring → Instr) (b k : Bitstring) :
    twoOperands make (renderOperand b) (renderOperand k) = .ok (some (make b k)) := by
  simp [twoOperands, operand_renderOperand]

end Sys2Proof
end

section
/-! The statement of 30_encoding.md rule R64. -/

namespace Sys2Proof

/-- Settles O50: the tokens of each form are the mnemonic and the quoted operands, which are read back. -/
theorem renderedCommandIsReadBack : Obligations.RenderedCommandIsReadBack := by
  intro i
  cases i with
  | log => rfl
  | ksch k =>
    rw [parseLine, render, tokens_atom_blank (by decide) isPlain_mnemonicKsch,
      tokens_atom (renderOperand_ne_nil k) (isPlain_renderOperand k), parseTokens, if_pos rfl, operand_renderOperand]
  | enc b k =>
    rw [parseLine, render, tokens_twoOperands (by decide) isPlain_mnemonicEnc, parseTokens, if_pos rfl, twoOperands_renderOperand]
  | dec b k =>
    rw [parseLine, render, tokens_twoOperands (by decide) isPlain_mnemonicDec, parseTokens, if_neg (by decide), if_pos rfl,
      twoOperands_renderOperand]

end Sys2Proof
end

section
/-! SUPPORT. What a loop of a host procedure answers from the answers of its actions (45_host_procedures.md rule R165). -/

namespace Sys2Proof.Machine

theorem forEach_of_forall₂ {α β : Type} {f : α → State → Except HostStop β × State} {cfg : Config} {l : List α}
    {ys : List β}
    (h : List.Forall₂ (fun a y => ∀ s : State, s.config = cfg → ∃ t, f a s = (.ok y, t) ∧ t.config = cfg) l ys) :
    ∀ s : State, s.config = cfg → ∃ t, forEach f l s = (.ok ys, t) ∧ t.config = cfg := by
  induction h with
  | nil => exact fun s hs => ⟨s, rfl, hs⟩
  | cons ha _ ih =>
    intro s hs
    obtain ⟨t, hf, ht⟩ := ha s hs
    obtain ⟨u, hrest, hu⟩ := ih t ht
    exact ⟨u, by simp only [forEach, hf, hrest], hu⟩

/-- The first stop ends the loop, in the state it then has. -/
theorem forEach_append_of_stop {α β : Type} {f : α → State → Except HostStop β × State} {before : List α} {a : α}
    {ys : List β} {e : HostStop} {s u v : State} (hbefore : forEach f before s = (.ok ys, u)) (ha : f a u = (.error e, v))
    (after : List α) : forEach f (before ++ a :: after) s = (.error e, v) := by
  induction before generalizing s ys with
  | nil =>
    obtain rfl : s = u := congrArg Prod.snd hbefore
    simp only [List.nil_append, forEach, ha]
  | cons b before ih =>
    rw [forEach] at hbefore
    split at hbefore
    · cases hbefore
    · next y s' hb =>
      split at hbefore
      · cases hbefore
      · next zs s'' hrest =>
        obtain rfl : s'' = u := congrArg Prod.snd hbefore
        simp only [List.cons_append, forEach, hb, ih hrest]

/-- `b` is a block that `decrypt` takes back to the 8 bits of the character `cp`. -/
def DecryptsTo (T : Tables) (k b : Bitstring) (cp : Nat) : Prop := cp ≤ 255 ∧ decryptBlock T b k = .ok (bits 8 cp)

theorem encryptCharacter_answers {k : Bitstring} {cp : Nat} {s : State} (hk : keyOk k) (hcp : cp ≤ 255) :
    ∃ b t, encryptCharacter k cp s = (.ok b, t) ∧ t.config = s.config ∧ blockOk b ∧ DecryptsTo s.config.tables k b cp := by
  obtain ⟨b, t, hb, henc, hans, ht⟩ := hostEncrypt_of_wf (b := bits blockW cp) (s := s) (length_bits ..) hk
  obtain ⟨b', henc', -, hdec⟩ := decryptBlock_undoes_encryptBlock s.config.tablesOk hk (bits 8 cp) (length_bits ..)
  obtain rfl : b = b' := Except.ok.inj (henc.symm.trans henc')
  exact ⟨b, t, by rw [encryptCharacter, if_neg (by omega), hans], ht, hb, hcp, hdec⟩

/-- Encrypting supported characters answers blocks that `decrypt` takes back to the characters. -/
theorem encryptAsciiToBlocks_answers {text : List Nat} {k : Bitstring} {s : State} (hk : keyOk k)
    (htext : ∀ cp ∈ text, cp ≤ 255) :
    ∃ blocks u, encryptAsciiToBlocks text k s = (.ok blocks, u) ∧
      List.Forall₂ (fun b cp => blockOk b ∧ DecryptsTo s.config.tables k b cp) blocks text := by
  obtain ⟨blocks, u, h, -, hrel⟩ := forEach_of_each (f := encryptCharacter k) (cfg := s.config) (l := text)
    (rel := fun cp b => blockOk b ∧ DecryptsTo s.config.tables k b cp)
    (fun cp hcp _ hs' => hs' ▸ encryptCharacter_answers hk (htext cp hcp)) s rfl
  exact ⟨blocks, u, h, hrel.flip⟩

theorem decryptCharacter_answers {b k : Bitstring} {cp : Nat} {s : State} (hb : blockOk b) (hk : keyOk k)
    (h : DecryptsTo s.config.tables k b cp) :
    ∃ t, decryptCharacter k b s = (.ok cp, t) ∧ t.config = s.config := by
  obtain ⟨hcp, hd⟩ := h
  obtain ⟨c, t, -, hdec, hans, ht⟩ := hostDecrypt_of_wf (s := s) hb hk
  obtain rfl : c = bits 8 cp := Except.ok.inj (hdec.symm.trans hd)
  have hval : val (bits 8 cp) = cp := by rw [val_bits, Nat.mod_eq_of_lt (by omega)]
  refine ⟨t, ?_, ht⟩
  rw [decryptCharacter, hans]
  show (Except.ok (val (bits 8 cp)), t) = _
  rw [hval]

end Sys2Proof.Machine
end

section
/-! The statements of 45_host_procedures.md on the Text Codec. -/

namespace Sys2Proof.Machine

/-- Settles O51: each block decrypts to the bits of its character, whose value is the character. -/
theorem textRoundTrip : Obligations.TextRoundTrip := by
  intro text k s s' hs hk htext
  obtain ⟨blocks, u, henc, hrel⟩ := encryptAsciiToBlocks_answers (s := s) hk htext
  obtain ⟨u', hdec, -⟩ := forEach_of_forall₂ (f := decryptCharacter k) (cfg := s'.config)
    (hrel.imp fun b cp ⟨hb, hd⟩ t ht => ht ▸ decryptCharacter_answers hb hk (by rw [ht, hs]; exact hd)) s' rfl
  exact ⟨blocks, u, u', henc, hrel.length_eq, ((List.forall₂_and_left _ _).mp hrel).1, hdec⟩

/-- Settles O52: the characters before are encrypted, and the next one stops the loop before any command. -/
theorem unsupportedCharacterStopsTheText : Obligations.UnsupportedCharacterStopsTheText := by
  intro before after cp k s hk hbefore hcp
  obtain ⟨blocks, u, henc, -⟩ := encryptAsciiToBlocks_answers (s := s) hk hbefore
  have hstop : encryptCharacter k cp u = (.error (.error .unsupportedCharacter), u) := if_pos hcp
  exact ⟨blocks, u, henc, forEach_append_of_stop henc hstop after⟩

end Sys2Proof.Machine
end

section
/-! SUPPORT. What a search answers, worker by worker (45_host_procedures.md rules R170 to R173). -/

namespace Sys2Proof.Machine

/-- The key encrypts the plaintext of every pair to its ciphertext. -/
def fits (T : Tables) (pairs : List (Bitstring × Bitstring)) (key : Bitstring) : Bool :=
  pairs.all fun pc => decide (encryptBlock T pc.1 key = .ok pc.2)

theorem fits_cons {T : Tables} {p c c' key : Bitstring} (rest : List (Bitstring × Bitstring))
    (h : encryptBlock T p key = .ok c') : fits T ((p, c) :: rest) key = (decide (c' = c) && fits T rest key) := by
  simp [fits, h]

theorem keyOk_keyOfNumber (n : Nat) : keyOk (keyOfNumber n) := length_bits ..

section
variable (stopEarly : Bool) {pairs : List (Bitstring × Bitstring)} (hpairs : ∀ pc ∈ pairs, blockOk pc.1)
include hpairs

/-- Leaving out the later pairs of a failed key does not change its verdict. -/
theorem testKey_answers {key : Bitstring} (hk : keyOk key) (s : State) :
    ∃ t, testKey stopEarly key pairs s = (.ok (fits s.config.tables pairs key), t) ∧ t.config = s.config := by
  induction pairs generalizing s with
  | nil => exact ⟨s, rfl, rfl⟩
  | cons pc rest ih =>
    obtain ⟨p, c⟩ := pc
    obtain ⟨c', t, -, henc, hans, ht⟩ := hostEncrypt_of_wf (s := s) (hpairs (p, c) (by simp)) hk
    obtain ⟨u, hrest, hu⟩ := ih (fun pc hpc => hpairs pc (by simp [hpc])) t
    rw [fits_cons rest henc, testKey, hans]
    rw [ht] at hrest hu
    by_cases hc : c' = c
    · exact ⟨u, by simp [hc, hrest], hu⟩
    · cases stopEarly with
      | true => exact ⟨t, by simp [hc], ht⟩
      | false => exact ⟨u, by simp [hc, hrest], hu⟩

theorem searchShard_answers (numbers : List Nat) (s : State) :
    (searchShard stopEarly pairs numbers s).1 =
      .ok (numbers.filter fun n => fits s.config.tables pairs (keyOfNumber n)) := by
  have heach : List.Forall₂ (fun n y => ∀ t : State, t.config = s.config →
      ∃ u, testNumber stopEarly pairs n t = (.ok y, u) ∧ u.config = s.config) numbers
      (numbers.map fun n => (n, fits s.config.tables pairs (keyOfNumber n))) := by
    rw [List.forall₂_map_right_iff, List.forall₂_same]
    intro n _ t ht
    obtain ⟨u, hans, hu⟩ := testKey_answers stopEarly hpairs (keyOk_keyOfNumber n) t
    exact ⟨u, by rw [testNumber, hans, ht]; rfl, hu.trans ht⟩
  obtain ⟨u, hans, -⟩ := forEach_of_forall₂ heach s rfl
  rw [searchShard, hans]
  simp [Except.map, List.filter_map, Function.comp_def]

theorem runWorkers_answers (c : Config) {shards : List (List Nat)} {instances : List InstanceState}
    (h : shards.length ≤ instances.length) :
    (runWorkers stopEarly pairs c shards instances).1 =
      .ok (shards.map (List.filter fun n => fits c.tables pairs (keyOfNumber n))) := by
  induction shards generalizing instances with
  | nil => rfl
  | cons numbers rest ih =>
    cases instances with
    | nil => simp at h
    | cons i instances =>
      rw [runWorkers, searchShard_answers stopEarly hpairs, ih (by simpa using h)]
      rfl

end

/-- Merging the workers' results gives every key that fits, once, when the shards cover the keyspace. -/
theorem candidateSet_of_covering {P : Nat → Bool} {shards : List (List Nat)}
    (h : ∀ n, n < 1024 → ∃ sh ∈ shards, n ∈ sh) :
    candidateSet (shards.map (List.filter P)) = ((List.range 1024).filter P).map keyOfNumber := by
  refine congrArg (List.map keyOfNumber) (List.filter_congr fun n hn => ?_)
  obtain ⟨sh, hsh, hmem⟩ := h n (List.mem_range.mp hn)
  rw [Bool.eq_iff_iff]
  simp only [List.any_map, List.any_eq_true, Function.comp_apply, List.contains_iff_mem, List.mem_filter]
  exact ⟨fun ⟨_, _, _, hP⟩ => hP, fun hP => ⟨sh, hsh, hmem, hP⟩⟩

/-! The worker that tries a key number (45_host_procedures.md rule R172). -/

/-- Contiguous shards end at the multiples of `1024 / w`, rounded down, so `n` belongs to the last worker `j` with
`j * 1024 < (n + 1) * w`. -/
def shardOwner (sharding : Sharding) (w n : Nat) : Nat :=
  match sharding with
  | .contiguous => ((n + 1) * w - 1) / 1024
  | .striped => n % w

theorem shardOwner_lt {w n : Nat} (sharding : Sharding) (hw : 0 < w) (hn : n < 1024) : shardOwner sharding w n < w := by
  cases sharding with
  | contiguous =>
    have : (n + 1) * w ≤ 1024 * w := Nat.mul_le_mul_right w hn
    have : 0 < (n + 1) * w := by positivity
    rw [shardOwner, Nat.div_lt_iff_lt_mul (by omega)]
    omega
  | striped => exact Nat.mod_lt n hw

theorem mem_shard_iff {sharding : Sharding} {w j n : Nat} (hw : 0 < w) :
    n ∈ shard sharding w j ↔ n < 1024 ∧ shardOwner sharding w n = j := by
  cases sharding with
  | contiguous =>
    have hpos : 0 < (n + 1) * w := by positivity
    have hlo : j * 1024 / w ≤ n ↔ j * 1024 < (n + 1) * w := by rw [← Nat.lt_succ_iff, Nat.div_lt_iff_lt_mul hw]
    have hhi : n < (j + 1) * 1024 / w ↔ (n + 1) * w ≤ (j + 1) * 1024 := by rw [← Nat.succ_le_iff, Nat.le_div_iff_mul_le hw]
    simp only [shard, shardOwner, keyspace, List.mem_filter, List.mem_range, Bool.and_eq_true, decide_eq_true_eq, hlo, hhi]
    omega
  | striped => simp [shard, shardOwner]

end Sys2Proof.Machine
end

section
/-! The statements of 45_host_procedures.md on the Brute-Force Search. -/

namespace Sys2Proof.Machine

/-- Settles O53: each worker answers the keys of its shard that fit, and the merge keeps these. -/
theorem searchFindsExactlyTheKeys : Obligations.SearchFindsExactlyTheKeys := by
  intro stopEarly pairs shards p hlen hpairs hcover
  rw [searchShards, runWorkers_answers stopEarly hpairs p.config hlen]
  exact congrArg Except.ok (candidateSet_of_covering hcover)

/-- Settles O54: the owner of a key number is the one worker whose shard holds it. -/
theorem shardsPartitionTheKeyspace : Obligations.ShardsPartitionTheKeyspace := by
  intro plan hw
  have hshard : ∀ (j : Nat) (sh : List Nat), plan.shards[j]? = some sh ↔
      j < plan.workerCount ∧ shard plan.sharding plan.workerCount j = sh := by
    intro j sh
    simp [SearchPlan.shards, List.getElem?_eq_some_iff]
  refine ⟨by simp [SearchPlan.shards], fun n hn => ?_, fun sh hsh n hmem => ?_⟩
  · refine ⟨shardOwner plan.sharding plan.workerCount n, ⟨_, (hshard _ _).mpr ⟨shardOwner_lt _ hw hn, rfl⟩,
      (mem_shard_iff hw).mpr ⟨hn, rfl⟩⟩, fun j' sh' hj' hmem => ?_⟩
    obtain ⟨-, rfl⟩ := (hshard j' sh').mp hj'
    exact ((mem_shard_iff hw).mp hmem).2.symm
  · obtain ⟨j, hj⟩ := List.mem_iff_getElem?.mp hsh
    obtain ⟨-, rfl⟩ := (hshard j sh).mp hj
    exact ((mem_shard_iff hw).mp hmem).1

end Sys2Proof.Machine
end

section
/-! SUPPORT. The collision map after some key numbers were tried (45_host_procedures.md rules R175, R177). -/

namespace Sys2Proof.Machine

theorem addKey_cases (c key : Bitstring) (m : CollisionMap) :
    (∃ pre keys post, m = pre ++ (c, keys) :: post ∧ addKey c key m = pre ++ (c, keys ++ [key]) :: post) ∨
    (c ∉ m.map Prod.fst ∧ addKey c key m = m ++ [(c, [key])]) := by
  induction m with
  | nil => exact .inr ⟨by simp, rfl⟩
  | cons entry m ih =>
    obtain ⟨c', keys⟩ := entry
    by_cases hc : c' = c
    · subst hc
      exact .inl ⟨[], keys, m, rfl, by simp [addKey]⟩
    · obtain ⟨pre, ks, post, rfl, hadd⟩ | ⟨hnew, hadd⟩ := ih
      · exact .inl ⟨(c', keys) :: pre, ks, post, rfl, by simp [addKey, hc, hadd]⟩
      · exact .inr ⟨by simpa [Ne.symm hc] using hnew, by simp [addKey, hc, hadd]⟩

/-- The keys of the numbers whose ciphertext is `c`, in the order of the numbers. -/
def keysUnder (cipher : Nat → Bitstring) (numbers : List Nat) (c : Bitstring) : List Bitstring :=
  (numbers.filter fun n => decide (cipher n = c)).map keyOfNumber

theorem keysUnder_append_same (cipher : Nat → Bitstring) (numbers : List Nat) (n : Nat) :
    keysUnder cipher (numbers ++ [n]) (cipher n) = keysUnder cipher numbers (cipher n) ++ [keyOfNumber n] := by
  simp [keysUnder]

theorem keysUnder_append_of_ne {cipher : Nat → Bitstring} {n : Nat} {c : Bitstring} (h : c ≠ cipher n)
    (numbers : List Nat) : keysUnder cipher (numbers ++ [n]) c = keysUnder cipher numbers c := by
  simp [keysUnder, h.symm]

theorem keysUnder_eq_nil {cipher : Nat → Bitstring} {numbers : List Nat} {c : Bitstring}
    (h : ∀ n ∈ numbers, cipher n ≠ c) : keysUnder cipher numbers c = [] := by
  simpa [keysUnder] using h

/-- The collision map of the numbers tried so far, whose ciphertexts `cipher` gives. -/
structure Collects (cipher : Nat → Bitstring) (numbers : List Nat) (m : CollisionMap) : Prop where
  nodup : (m.map Prod.fst).Nodup
  keys_eq : ∀ c keys, (c, keys) ∈ m → keys ≠ [] ∧ keys = keysUnder cipher numbers c
  covers : ∀ n ∈ numbers, cipher n ∈ m.map Prod.fst
  total : (m.map fun e => e.2.length).sum = numbers.length

theorem collects_nil (cipher : Nat → Bitstring) : Collects cipher [] [] :=
  ⟨List.nodup_nil, by simp, by simp, rfl⟩

/-- Under a ciphertext that is there the key is appended to its list, and the other lists are still those of their
ciphertexts. -/
theorem collects_append_key {cipher : Nat → Bitstring} {numbers : List Nat} {n : Nat} {keys : List Bitstring}
    {pre post : CollisionMap} (h : Collects cipher numbers (pre ++ (cipher n, keys) :: post)) :
    Collects cipher (numbers ++ [n]) (pre ++ (cipher n, keys ++ [keyOfNumber n]) :: post) := by
  obtain ⟨hnodup, hkeys, hcovers, htotal⟩ := h
  have hother : ∀ e ∈ pre ++ post, e.1 ≠ cipher n := by
    rw [List.map_append, List.map_cons, List.nodup_middle, List.nodup_cons, ← List.map_append] at hnodup
    have hnot : cipher n ∉ (pre ++ post).map Prod.fst := hnodup.1
    exact fun e he heq => hnot (heq ▸ List.mem_map_of_mem he)
  refine ⟨by simpa using hnodup, fun c ks hmem => ?_, fun n' hn' => ?_, ?_⟩
  · rw [List.mem_append, List.mem_cons, or_left_comm, ← List.mem_append] at hmem
    rcases hmem with hmem | hmem
    · obtain ⟨rfl, rfl⟩ := Prod.mk.inj hmem
      have hold := (hkeys (cipher n) keys (by simp)).2
      exact ⟨by simp, by rw [keysUnder_append_same, ← hold]⟩
    · rw [keysUnder_append_of_ne (hother _ hmem)]
      refine hkeys c ks ?_
      rw [List.mem_append] at hmem
      rw [List.mem_append, List.mem_cons]
      tauto
  · rcases List.mem_append.mp hn' with hn' | hn'
    · simpa using hcovers n' hn'
    · simp [List.mem_singleton.mp hn']
  · simp at htotal ⊢
    omega

/-- Under a new ciphertext the key begins a list of its own, and no earlier number has that ciphertext. -/
theorem collects_new_entry {cipher : Nat → Bitstring} {numbers : List Nat} {n : Nat} {m : CollisionMap}
    (h : Collects cipher numbers m) (hnew : cipher n ∉ m.map Prod.fst) :
    Collects cipher (numbers ++ [n]) (m ++ [(cipher n, [keyOfNumber n])]) := by
  obtain ⟨hnodup, hkeys, hcovers, htotal⟩ := h
  have hnone : ∀ n' ∈ numbers, cipher n' ≠ cipher n := fun n' hn' heq => hnew (heq ▸ hcovers n' hn')
  refine ⟨?_, fun c ks hmem => ?_, fun n' hn' => ?_, ?_⟩
  · rw [List.map_append, List.map_singleton, List.nodup_middle, List.append_nil]
    exact List.nodup_cons.mpr ⟨hnew, hnodup⟩
  · rcases List.mem_append.mp hmem with hmem | hmem
    · have hc : c ≠ cipher n := fun hc => hnew (hc ▸ List.mem_map_of_mem hmem)
      rw [keysUnder_append_of_ne hc]
      exact hkeys c ks hmem
    · obtain ⟨rfl, rfl⟩ := Prod.mk.inj (List.mem_singleton.mp hmem)
      exact ⟨by simp, by rw [keysUnder_append_same, keysUnder_eq_nil hnone, List.nil_append]⟩
  · rw [List.map_append, List.mem_append]
    rcases List.mem_append.mp hn' with hn' | hn'
    · exact .inl (hcovers n' hn')
    · exact .inr (by simp [List.mem_singleton.mp hn'])
  · simp [htotal]

theorem collects_addKey {cipher : Nat → Bitstring} {numbers : List Nat} {m : CollisionMap}
    (h : Collects cipher numbers m) (n : Nat) :
    Collects cipher (numbers ++ [n]) (addKey (cipher n) (keyOfNumber n) m) := by
  obtain ⟨pre, keys, post, rfl, hadd⟩ | ⟨hnew, hadd⟩ := addKey_cases (cipher n) (keyOfNumber n) m
  · rw [hadd]; exact collects_append_key h
  · rw [hadd]; exact collects_new_entry h hnew

theorem collectCollisions_collects {cipher : Nat → Bitstring} {p : Bitstring} {c : Config} (hp : blockOk p)
    (hcipher : ∀ n, encryptBlock c.tables p (keyOfNumber n) = .ok (cipher n)) (rest : List Nat) :
    ∀ (tried : List Nat) (m : CollisionMap) (s : State), s.config = c → Collects cipher tried m →
      ∃ m' u, collectCollisions p rest m s = (.ok m', u) ∧ Collects cipher (tried ++ rest) m' := by
  induction rest with
  | nil => exact fun tried m s _ hm => ⟨m, s, rfl, by rwa [List.append_nil]⟩
  | cons n rest ih =>
    intro tried m s hs hm
    obtain ⟨c', t, -, henc, hans, ht⟩ := hostEncrypt_of_wf (s := s) hp (keyOk_keyOfNumber n)
    obtain rfl : c' = cipher n := Except.ok.inj (henc.symm.trans (hs ▸ hcipher n))
    obtain ⟨m', u, hrest, hm'⟩ := ih (tried ++ [n]) _ t (ht.trans hs) (collects_addKey hm n)
    rw [List.append_assoc, List.singleton_append] at hm'
    exact ⟨m', u, by rw [collectCollisions, hans]; exact hrest, hm'⟩

end Sys2Proof.Machine
end

section
/-! The statement of 45_host_procedures.md on the Collision Analyzer. -/

namespace Sys2Proof.Machine

/-- Settles O55: the map of the numbers 0 to 1023, by `encrypt` as the function from numbers to ciphertexts. -/
theorem collisionMapIsComplete : Obligations.CollisionMapIsComplete := by
  intro p s hp
  choose cipher hcipher _ using fun n => encryptBlock_succeeds s.config.tablesOk hp (keyOk_keyOfNumber n)
  obtain ⟨m, u, hans, hnodup, hkeys, hcovers, htotal⟩ :=
    collectCollisions_collects hp hcipher (List.range keyspace) [] [] s rfl (collects_nil cipher)
  rw [List.nil_append] at hkeys hcovers htotal
  refine ⟨m, u, hans, hnodup, fun c keys hmem => ?_, fun n c hn hc => ?_, htotal.trans List.length_range⟩
  · simpa only [hcipher, Except.ok.injEq, keysUnder] using hkeys c keys hmem
  · obtain rfl : cipher n = c := Except.ok.inj ((hcipher n).symm.trans hc)
    exact hcovers n (List.mem_range.mpr hn)

end Sys2Proof.Machine
end
